-- ==== Sys2Proof/Word.lean ====
section
/-! DEFINITION. The word types of the machine: every value is an unsigned number of a stated width (00_scope.md R9). -/

namespace Sys2Proof

/-- One byte of memory, one V register, one timer (10_state.md R20). -/
abbrev Byte := BitVec 8

/-- A 16-bit value: PC, I, a stack slot, an instruction word (10_state.md R24, R25, R28; 30_encoding.md R70). -/
abbrev Word := BitVec 16

/-- A 4-bit field: a register index, the row count `n`, a key 0x0..0xF (30_encoding.md R72). -/
abbrev Nibble := BitVec 4

/-- The 12-bit address field `nnn` (30_encoding.md R72). -/
abbrev Addr12 := BitVec 12

end Sys2Proof
end

