-- ==== Sys2Proof/Config.lean ====
section
/-! DEFINITION. What is fixed for the machine (the sizes and the parameters of 00_scope.md R7) and what the spec leaves
free (the driver's operations and the collaborators' answers, 40_fetch_decode_execute.md R90, R91). -/

namespace Sys2Proof

/-- `MEM_SIZE`: addresses 0x000 to 0xFFF (00_scope.md R7, 20_memory.md R50). -/
def memSize : Nat := 4096

/-- `ORIGIN`: the fixed base of loaded code and the reset PC (00_scope.md R7). -/
def origin : Nat := 0x200

/-- `FONT_DATA` has 80 bytes (00_scope.md R7). -/
def fontBytes : Nat := 80

/-- The parameters a model takes as arguments (00_scope.md R7; 92_eei_decisions.md D14, D15, D16). State carries one
such record, which nothing ever changes, so that a statement about every state is a statement about every choice of
the parameters (DESIGN CHOICE, log 1). -/
structure Config where
  /-- `FONT_BASE`: where the font stands in the reserved region. -/
  fontBase : Nat
  /-- `FONT_DATA`: 16 glyphs of 5 bytes (10_state.md R33). -/
  fontData : Vector Byte 80
  /-- `PROTECT_RESERVED`: whether an instruction's store below `ORIGIN` faults (20_memory.md R67). -/
  protectReserved : Bool
deriving DecidableEq, Repr

/-- The collaborators' answers for one STEP (40_fetch_decode_execute.md R91). A step reads only the field that its
instruction uses. The key of an event is 4 bits wide: the host delivers only keys 0x0..0xF (44_timers_external.md
R191). -/
structure Env where
  /-- Which of the 16 keys are down: bit k is key k (`Input.key_down`). -/
  keysDown : BitVec 16
  /-- The key event delivered, if any (`Input.key_event`). -/
  keyEvent : Option Nibble
  /-- The byte of `Random.byte`. -/
  random : Byte
  /-- Whether a toggled pixel was already on (`Display.draw`). -/
  collided : Bool
deriving DecidableEq, Repr, Inhabited

/-- The four operations the driver invokes, each atomic (40_fetch_decode_execute.md R90). -/
inductive DriverOp where
  | reset
  | load (bytes : List Byte)
  | step (env : Env)
  | tick
deriving DecidableEq, Repr, Inhabited

/-- FREE VALUE (log 3): the n-th operation of the driver, when none is queued. Any operation may come, with any answers
and any bytes, so any number of TICKs falls between two STEPs (44_timers_external.md R188; 93_implementation_defined.md
U14 to U18, U20). -/
opaque Config.freeOp : Nat → DriverOp

/-- FREE VALUE (log 4): answers for a STEP that no queued operation gives any (93_implementation_defined.md U14 to
U17). -/
opaque Config.freeEnv : Nat → Env

end Sys2Proof
end

