-- ==== Sys2Proof/Syntax.lean ====
section
/-! DEFINITION. The instructions: one constructor for each of the 34 rows of spec/opcode_table.json, in its order. -/

namespace Sys2Proof

/-- The canonical table of 00_scope.md R2 and 30_encoding.md R74. Fields are those of 30_encoding.md R72: `x` and `y`
4-bit register indices, `n` a 4-bit, `nn` an 8-bit immediate, `nnn` a 12-bit address. The `y` of SHR and SHL is decoded
and ignored (R81); it is kept, so that a word can be given back whole. -/
inductive Instr where
  | cls                                        -- 00E0
  | ret                                        -- 00EE
  | jpNnn (nnn : Addr12)                       -- 1nnn
  | callNnn (nnn : Addr12)                     -- 2nnn
  | seVxNn (x : Nibble) (nn : Byte)            -- 3xnn
  | sneVxNn (x : Nibble) (nn : Byte)           -- 4xnn
  | seVxVy (x y : Nibble)                      -- 5xy0
  | ldVxNn (x : Nibble) (nn : Byte)            -- 6xnn
  | addVxNn (x : Nibble) (nn : Byte)           -- 7xnn
  | ldVxVy (x y : Nibble)                      -- 8xy0
  | orVxVy (x y : Nibble)                      -- 8xy1
  | andVxVy (x y : Nibble)                     -- 8xy2
  | xorVxVy (x y : Nibble)                     -- 8xy3
  | addVxVy (x y : Nibble)                     -- 8xy4
  | subVxVy (x y : Nibble)                     -- 8xy5
  | shrVxVy (x y : Nibble)                     -- 8xy6
  | subnVxVy (x y : Nibble)                    -- 8xy7
  | shlVxVy (x y : Nibble)                     -- 8xyE
  | sneVxVy (x y : Nibble)                     -- 9xy0
  | ldINnn (nnn : Addr12)                      -- Annn
  | jpV0Nnn (nnn : Addr12)                     -- Bnnn
  | rndVxNn (x : Nibble) (nn : Byte)           -- Cxnn
  | drwVxVyN (x y n : Nibble)                  -- Dxyn
  | skpVx (x : Nibble)                         -- Ex9E
  | sknpVx (x : Nibble)                        -- ExA1
  | ldVxDt (x : Nibble)                        -- Fx07
  | ldVxK (x : Nibble)                         -- Fx0A
  | ldDtVx (x : Nibble)                        -- Fx15
  | ldStVx (x : Nibble)                        -- Fx18
  | addIVx (x : Nibble)                        -- Fx1E
  | ldFVx (x : Nibble)                         -- Fx29
  | ldBVx (x : Nibble)                         -- Fx33
  | ldMiVx (x : Nibble)                        -- Fx55
  | ldVxMi (x : Nibble)                        -- Fx65
deriving DecidableEq, Repr

end Sys2Proof
end

