-- ==== Sys2Proof/WellFormed.lean ====
section
/-! DEFINITION. What makes an instruction, a word and a parameter record well-formed. -/

namespace Sys2Proof

/-- The operands fit the fields of 30_encoding.md R72. The types of `Instr` already hold each operand to its width, so
every instruction passes (`Laws.wellFormed_all`): the check says which bounds the types stand for. -/
def Instr.wellFormed : Instr → Bool
  | .cls | .ret => true
  | .jpNnn nnn | .callNnn nnn | .ldINnn nnn | .jpV0Nnn nnn => decide (nnn.toNat < 4096)
  | .seVxNn x nn | .sneVxNn x nn | .ldVxNn x nn | .addVxNn x nn | .rndVxNn x nn =>
    decide (x.toNat < 16 ∧ nn.toNat < 256)
  | .seVxVy x y | .ldVxVy x y | .orVxVy x y | .andVxVy x y | .xorVxVy x y | .addVxVy x y | .subVxVy x y
  | .shrVxVy x y | .subnVxVy x y | .shlVxVy x y | .sneVxVy x y => decide (x.toNat < 16 ∧ y.toNat < 16)
  | .drwVxVyN x y n => decide (x.toNat < 16 ∧ y.toNat < 16 ∧ n.toNat < 16)
  | .skpVx x | .sknpVx x | .ldVxDt x | .ldVxK x | .ldDtVx x | .ldStVx x | .addIVx x | .ldFVx x | .ldBVx x
  | .ldMiVx x | .ldVxMi x => decide (x.toNat < 16)

/-- One row of spec/opcode_table.json: a word is the row's instruction when its bits under `mask` are `value`. -/
structure OpcodeRow where
  mnemonic : String
  value : Word
  mask : Word
deriving DecidableEq, Repr

/-- The rows of families 0x0 to 0x7. -/
def opcodeRowsLow : List OpcodeRow :=
  [⟨"CLS", 0x00E0, 0xFFFF⟩, ⟨"RET", 0x00EE, 0xFFFF⟩, ⟨"JP_NNN", 0x1000, 0xF000⟩, ⟨"CALL_NNN", 0x2000, 0xF000⟩,
   ⟨"SE_VX_NN", 0x3000, 0xF000⟩, ⟨"SNE_VX_NN", 0x4000, 0xF000⟩, ⟨"SE_VX_VY", 0x5000, 0xF00F⟩,
   ⟨"LD_VX_NN", 0x6000, 0xF000⟩, ⟨"ADD_VX_NN", 0x7000, 0xF000⟩]

/-- The rows of families 0x8 and 0x9. -/
def opcodeRowsAlu : List OpcodeRow :=
  [⟨"LD_VX_VY", 0x8000, 0xF00F⟩, ⟨"OR_VX_VY", 0x8001, 0xF00F⟩, ⟨"AND_VX_VY", 0x8002, 0xF00F⟩,
   ⟨"XOR_VX_VY", 0x8003, 0xF00F⟩, ⟨"ADD_VX_VY", 0x8004, 0xF00F⟩, ⟨"SUB_VX_VY", 0x8005, 0xF00F⟩,
   ⟨"SHR_VX_VY", 0x8006, 0xF00F⟩, ⟨"SUBN_VX_VY", 0x8007, 0xF00F⟩, ⟨"SHL_VX_VY", 0x800E, 0xF00F⟩,
   ⟨"SNE_VX_VY", 0x9000, 0xF00F⟩]

/-- The rows of families 0xA to 0xF. -/
def opcodeRowsHigh : List OpcodeRow :=
  [⟨"LD_I_NNN", 0xA000, 0xF000⟩, ⟨"JP_V0_NNN", 0xB000, 0xF000⟩, ⟨"RND_VX_NN", 0xC000, 0xF000⟩,
   ⟨"DRW_VX_VY_N", 0xD000, 0xF000⟩, ⟨"SKP_VX", 0xE09E, 0xF0FF⟩, ⟨"SKNP_VX", 0xE0A1, 0xF0FF⟩,
   ⟨"LD_VX_DT", 0xF007, 0xF0FF⟩, ⟨"LD_VX_K", 0xF00A, 0xF0FF⟩, ⟨"LD_DT_VX", 0xF015, 0xF0FF⟩,
   ⟨"LD_ST_VX", 0xF018, 0xF0FF⟩, ⟨"ADD_I_VX", 0xF01E, 0xF0FF⟩, ⟨"LD_F_VX", 0xF029, 0xF0FF⟩,
   ⟨"LD_B_VX", 0xF033, 0xF0FF⟩, ⟨"LD_MI_VX", 0xF055, 0xF0FF⟩, ⟨"LD_VX_MI", 0xF065, 0xF0FF⟩]

/-- The opcode table, row for row (spec/opcode_table.json). -/
def opcodeTable : List OpcodeRow := opcodeRowsLow ++ opcodeRowsAlu ++ opcodeRowsHigh

/-- The word is the row's instruction. -/
def OpcodeRow.accepts (r : OpcodeRow) (w : Word) : Bool := w &&& r.mask == r.value

/-- A word is an instruction when some row of the table accepts it (30_encoding.md R80, R81). -/
def legalWord (w : Word) : Bool := opcodeTable.any (·.accepts w)

/-- The constraint on the parameters: the font lies in the reserved region, `FONT_BASE + 80 <= ORIGIN`
(10_state.md R33). -/
def Config.wellFormed (c : Config) : Bool := decide (c.fontBase + fontBytes ≤ origin)

end Sys2Proof
end

