-- ==== Sys2Proof/Decode.lean ====
section
/-! DEFINITION. From words and bytes to instructions and back (30_encoding.md R70 to R81). Decoding is total and rejects
by name; the encoder is written from the same formats. -/

namespace Sys2Proof

/-! ### Fields (30_encoding.md R72) -/

/-- `f = op[15:12]`. -/
def fieldF (op : Word) : Nibble := op.extractLsb' 12 4

/-- `x = op[11:8]`. -/
def fieldX (op : Word) : Nibble := op.extractLsb' 8 4

/-- `y = op[7:4]`, shifted down (90_conflicts.md C1). -/
def fieldY (op : Word) : Nibble := op.extractLsb' 4 4

/-- `n = op[3:0]`. -/
def fieldN (op : Word) : Nibble := op.extractLsb' 0 4

/-- `nn = op[7:0]`. -/
def fieldNn (op : Word) : Byte := op.extractLsb' 0 8

/-- `nnn = op[11:0]`. -/
def fieldNnn (op : Word) : Addr12 := op.extractLsb' 0 12

/-- A big-endian word from its two bytes, high byte first (20_memory.md R53). -/
def wordOfBytes (hi lo : Byte) : Word := hi ++ lo

/-- `op[15:8]`, the byte at the lower address. -/
def highByte (op : Word) : Byte := op.extractLsb' 8 8

/-- `op[7:0]`, the byte at the higher address. -/
def lowByte (op : Word) : Byte := op.extractLsb' 0 8

/-! ### Decoding -/

/-- Why a word or a byte sequence is no instruction: the rows of 30_encoding.md R80, and a sequence too short to hold
a word. -/
inductive DecodeReject where
  /-- Fewer than two bytes. -/
  | truncated
  /-- `0nnn` other than 00E0 and 00EE (R75). -/
  | family0 (op : Word)
  /-- `5xyn` with n not 0 (R76). -/
  | family5 (op : Word)
  /-- `8xyn` with n in 8, 9, A, B, C, D, F (R77). -/
  | family8 (op : Word)
  /-- `9xyn` with n not 0 (R76). -/
  | family9 (op : Word)
  /-- `Exnn` with nn not 9E or A1 (R78). -/
  | familyE (op : Word)
  /-- `Fxnn` with nn none of the nine sub-opcodes (R79). -/
  | familyF (op : Word)
deriving DecidableEq, Repr

/-- Family 0x0 selects on the whole word (30_encoding.md R75). -/
def decodeFamily0 (op : Word) : Except DecodeReject Instr :=
  if op = 0x00E0#16 then .ok .cls
  else if op = 0x00EE#16 then .ok .ret
  else .error (.family0 op)

/-- Family 0x8 selects on `n` (30_encoding.md R77). -/
def decodeFamily8 (op : Word) : Except DecodeReject Instr :=
  match fieldN op with
  | 0x0#4 => .ok (.ldVxVy (fieldX op) (fieldY op))
  | 0x1#4 => .ok (.orVxVy (fieldX op) (fieldY op))
  | 0x2#4 => .ok (.andVxVy (fieldX op) (fieldY op))
  | 0x3#4 => .ok (.xorVxVy (fieldX op) (fieldY op))
  | 0x4#4 => .ok (.addVxVy (fieldX op) (fieldY op))
  | 0x5#4 => .ok (.subVxVy (fieldX op) (fieldY op))
  | 0x6#4 => .ok (.shrVxVy (fieldX op) (fieldY op))
  | 0x7#4 => .ok (.subnVxVy (fieldX op) (fieldY op))
  | 0xE#4 => .ok (.shlVxVy (fieldX op) (fieldY op))
  | _ => .error (.family8 op)

/-- Family 0xE selects on `nn` (30_encoding.md R78). -/
def decodeFamilyE (op : Word) : Except DecodeReject Instr :=
  match fieldNn op with
  | 0x9E#8 => .ok (.skpVx (fieldX op))
  | 0xA1#8 => .ok (.sknpVx (fieldX op))
  | _ => .error (.familyE op)

/-- Family 0xF selects on `nn` (30_encoding.md R79). -/
def decodeFamilyF (op : Word) : Except DecodeReject Instr :=
  match fieldNn op with
  | 0x07#8 => .ok (.ldVxDt (fieldX op))
  | 0x0A#8 => .ok (.ldVxK (fieldX op))
  | 0x15#8 => .ok (.ldDtVx (fieldX op))
  | 0x18#8 => .ok (.ldStVx (fieldX op))
  | 0x1E#8 => .ok (.addIVx (fieldX op))
  | 0x29#8 => .ok (.ldFVx (fieldX op))
  | 0x33#8 => .ok (.ldBVx (fieldX op))
  | 0x55#8 => .ok (.ldMiVx (fieldX op))
  | 0x65#8 => .ok (.ldVxMi (fieldX op))
  | _ => .error (.familyF op)

/-- The decode tree (30_encoding.md R74): on `f`, then on a sub-field. It reads no state but the word
(40_fetch_decode_execute.md R98). -/
def decode (op : Word) : Except DecodeReject Instr :=
  match fieldF op with
  | 0x0#4 => decodeFamily0 op
  | 0x1#4 => .ok (.jpNnn (fieldNnn op))
  | 0x2#4 => .ok (.callNnn (fieldNnn op))
  | 0x3#4 => .ok (.seVxNn (fieldX op) (fieldNn op))
  | 0x4#4 => .ok (.sneVxNn (fieldX op) (fieldNn op))
  | 0x5#4 => if fieldN op = 0x0#4 then .ok (.seVxVy (fieldX op) (fieldY op)) else .error (.family5 op)
  | 0x6#4 => .ok (.ldVxNn (fieldX op) (fieldNn op))
  | 0x7#4 => .ok (.addVxNn (fieldX op) (fieldNn op))
  | 0x8#4 => decodeFamily8 op
  | 0x9#4 => if fieldN op = 0x0#4 then .ok (.sneVxVy (fieldX op) (fieldY op)) else .error (.family9 op)
  | 0xA#4 => .ok (.ldINnn (fieldNnn op))
  | 0xB#4 => .ok (.jpV0Nnn (fieldNnn op))
  | 0xC#4 => .ok (.rndVxNn (fieldX op) (fieldNn op))
  | 0xD#4 => .ok (.drwVxVyN (fieldX op) (fieldY op) (fieldN op))
  | 0xE#4 => decodeFamilyE op
  | _ => decodeFamilyF op

/-- Decode the instruction at the head of a byte sequence and give the rest back: an instruction is always two bytes,
the high byte first (30_encoding.md R70). -/
def decodeBytes : List Byte → Except DecodeReject (Instr × List Byte)
  | hi :: lo :: rest =>
    match decode (wordOfBytes hi lo) with
    | .ok i => .ok (i, rest)
    | .error r => .error r
  | _ => .error .truncated

/-! ### Encoding -/

/-- Format `NNN` (30_encoding.md R71). -/
def formNnn (f : Nibble) (nnn : Addr12) : Word := f ++ nnn

/-- Format `XNN`; with `nn` the sub-opcode it is format `XSS` (30_encoding.md R71). -/
def formXnn (f x : Nibble) (nn : Byte) : Word := f ++ x ++ nn

/-- Format `XYN`; with `n` the sub-opcode it is format `XYS` (30_encoding.md R71). -/
def formXyn (f x y n : Nibble) : Word := f ++ x ++ y ++ n

/-- The word of an instruction (the patterns of spec/opcode_table.json). -/
def encode : Instr → Word
  | .cls => 0x00E0#16
  | .ret => 0x00EE#16
  | .jpNnn nnn => formNnn 0x1#4 nnn
  | .callNnn nnn => formNnn 0x2#4 nnn
  | .seVxNn x nn => formXnn 0x3#4 x nn
  | .sneVxNn x nn => formXnn 0x4#4 x nn
  | .seVxVy x y => formXyn 0x5#4 x y 0x0#4
  | .ldVxNn x nn => formXnn 0x6#4 x nn
  | .addVxNn x nn => formXnn 0x7#4 x nn
  | .ldVxVy x y => formXyn 0x8#4 x y 0x0#4
  | .orVxVy x y => formXyn 0x8#4 x y 0x1#4
  | .andVxVy x y => formXyn 0x8#4 x y 0x2#4
  | .xorVxVy x y => formXyn 0x8#4 x y 0x3#4
  | .addVxVy x y => formXyn 0x8#4 x y 0x4#4
  | .subVxVy x y => formXyn 0x8#4 x y 0x5#4
  | .shrVxVy x y => formXyn 0x8#4 x y 0x6#4
  | .subnVxVy x y => formXyn 0x8#4 x y 0x7#4
  | .shlVxVy x y => formXyn 0x8#4 x y 0xE#4
  | .sneVxVy x y => formXyn 0x9#4 x y 0x0#4
  | .ldINnn nnn => formNnn 0xA#4 nnn
  | .jpV0Nnn nnn => formNnn 0xB#4 nnn
  | .rndVxNn x nn => formXnn 0xC#4 x nn
  | .drwVxVyN x y n => formXyn 0xD#4 x y n
  | .skpVx x => formXnn 0xE#4 x 0x9E#8
  | .sknpVx x => formXnn 0xE#4 x 0xA1#8
  | .ldVxDt x => formXnn 0xF#4 x 0x07#8
  | .ldVxK x => formXnn 0xF#4 x 0x0A#8
  | .ldDtVx x => formXnn 0xF#4 x 0x15#8
  | .ldStVx x => formXnn 0xF#4 x 0x18#8
  | .addIVx x => formXnn 0xF#4 x 0x1E#8
  | .ldFVx x => formXnn 0xF#4 x 0x29#8
  | .ldBVx x => formXnn 0xF#4 x 0x33#8
  | .ldMiVx x => formXnn 0xF#4 x 0x55#8
  | .ldVxMi x => formXnn 0xF#4 x 0x65#8

/-- The instruction's bytes as memory holds them, the high byte at the lower address (20_memory.md R53). -/
def encodeBytes (i : Instr) : List Byte := [highByte (encode i), lowByte (encode i)]

/-- The mnemonic of the instruction's row in spec/opcode_table.json. -/
def Instr.mnemonic : Instr → String
  | .cls => "CLS"
  | .ret => "RET"
  | .jpNnn _ => "JP_NNN"
  | .callNnn _ => "CALL_NNN"
  | .seVxNn _ _ => "SE_VX_NN"
  | .sneVxNn _ _ => "SNE_VX_NN"
  | .seVxVy _ _ => "SE_VX_VY"
  | .ldVxNn _ _ => "LD_VX_NN"
  | .addVxNn _ _ => "ADD_VX_NN"
  | .ldVxVy _ _ => "LD_VX_VY"
  | .orVxVy _ _ => "OR_VX_VY"
  | .andVxVy _ _ => "AND_VX_VY"
  | .xorVxVy _ _ => "XOR_VX_VY"
  | .addVxVy _ _ => "ADD_VX_VY"
  | .subVxVy _ _ => "SUB_VX_VY"
  | .shrVxVy _ _ => "SHR_VX_VY"
  | .subnVxVy _ _ => "SUBN_VX_VY"
  | .shlVxVy _ _ => "SHL_VX_VY"
  | .sneVxVy _ _ => "SNE_VX_VY"
  | .ldINnn _ => "LD_I_NNN"
  | .jpV0Nnn _ => "JP_V0_NNN"
  | .rndVxNn _ _ => "RND_VX_NN"
  | .drwVxVyN _ _ _ => "DRW_VX_VY_N"
  | .skpVx _ => "SKP_VX"
  | .sknpVx _ => "SKNP_VX"
  | .ldVxDt _ => "LD_VX_DT"
  | .ldVxK _ => "LD_VX_K"
  | .ldDtVx _ => "LD_DT_VX"
  | .ldStVx _ => "LD_ST_VX"
  | .addIVx _ => "ADD_I_VX"
  | .ldFVx _ => "LD_F_VX"
  | .ldBVx _ => "LD_B_VX"
  | .ldMiVx _ => "LD_MI_VX"
  | .ldVxMi _ => "LD_VX_MI"

/-! ### Names for a reader (30_encoding.md R83) -/

/-- One hexadecimal digit. -/
def hexDigit (d : Nibble) : String :=
  ["0", "1", "2", "3", "4", "5", "6", "7", "8", "9", "A", "B", "C", "D", "E", "F"][d.toNat]'d.isLt

/-- `V0` to `VF`. -/
def regName (x : Nibble) : String := "V" ++ hexDigit x

/-- An 8-bit immediate, in hexadecimal. -/
def hex8 (nn : Byte) : String := hexDigit (nn.extractLsb' 4 4) ++ hexDigit (nn.extractLsb' 0 4)

/-- A 12-bit address, in hexadecimal. -/
def hex12 (nnn : Addr12) : String :=
  hexDigit (nnn.extractLsb' 8 4) ++ hexDigit (nnn.extractLsb' 4 4) ++ hexDigit (nnn.extractLsb' 0 4)

/-- Two registers as operands. -/
def regPair (x y : Nibble) : String := regName x ++ ", " ++ regName y

/-- The assembler's form of an instruction (30_encoding.md R83, decision D27). It names no behaviour. -/
def Instr.assembly : Instr → String
  | .cls => "CLS"
  | .ret => "RET"
  | .jpNnn nnn => "JP " ++ hex12 nnn
  | .callNnn nnn => "CALL " ++ hex12 nnn
  | .seVxNn x nn => "SE " ++ regName x ++ ", " ++ hex8 nn
  | .sneVxNn x nn => "SNE " ++ regName x ++ ", " ++ hex8 nn
  | .seVxVy x y => "SE " ++ regPair x y
  | .ldVxNn x nn => "LD " ++ regName x ++ ", " ++ hex8 nn
  | .addVxNn x nn => "ADD " ++ regName x ++ ", " ++ hex8 nn
  | .ldVxVy x y => "LD " ++ regPair x y
  | .orVxVy x y => "OR " ++ regPair x y
  | .andVxVy x y => "AND " ++ regPair x y
  | .xorVxVy x y => "XOR " ++ regPair x y
  | .addVxVy x y => "ADD " ++ regPair x y
  | .subVxVy x y => "SUB " ++ regPair x y
  | .shrVxVy x y => "SHR " ++ regPair x y
  | .subnVxVy x y => "SUBN " ++ regPair x y
  | .shlVxVy x y => "SHL " ++ regPair x y
  | .sneVxVy x y => "SNE " ++ regPair x y
  | .ldINnn nnn => "LD I, " ++ hex12 nnn
  | .jpV0Nnn nnn => "JP V0, " ++ hex12 nnn
  | .rndVxNn x nn => "RND " ++ regName x ++ ", " ++ hex8 nn
  | .drwVxVyN x y n => "DRW " ++ regPair x y ++ ", " ++ hexDigit n
  | .skpVx x => "SKP " ++ regName x
  | .sknpVx x => "SKNP " ++ regName x
  | .ldVxDt x => "LD " ++ regName x ++ ", DT"
  | .ldVxK x => "LD " ++ regName x ++ ", K"
  | .ldDtVx x => "LD DT, " ++ regName x
  | .ldStVx x => "LD ST, " ++ regName x
  | .addIVx x => "ADD I, " ++ regName x
  | .ldFVx x => "LD F, " ++ regName x
  | .ldBVx x => "LD B, " ++ regName x
  | .ldMiVx x => "LD [I], " ++ regName x
  | .ldVxMi x => "LD " ++ regName x ++ ", [I]"

/-! ### The host's question -/

/-- The instruction's bits numbered as spec/opcode_table.json numbers them (bit 0 the least significant of the one
word); the bits from `nbits` up are 0. -/
def tableWord (nbits w : Nat) : Word := BitVec.ofNat 16 (w % 2 ^ nbits)

/-- What the decoder reads from that word laid out as the hardware stores it (none where it refuses). -/
def decodeTableWord (nbits w : Nat) : Option Instr :=
  match decodeBytes [highByte (tableWord nbits w), lowByte (tableWord nbits w)] with
  | .ok (i, _) => some i
  | .error _ => none

end Sys2Proof
end

