-- ==== Sys2Proof/Machine/Font.lean ====
section
/-! DEFINITION. The default parameters of 00_scope.md R7: where the font stands, its bytes, and no protection of the
reserved region; and what memory holds after reset. -/

namespace Sys2Proof

/-- Glyphs 0 to 3 of the table of 10_state.md R33. -/
def fontGlyphs0to3 : List Byte :=
  [0xF0, 0x90, 0x90, 0x90, 0xF0, 0x20, 0x60, 0x20, 0x20, 0x70, 0xF0, 0x10, 0xF0, 0x80, 0xF0, 0xF0, 0x10, 0xF0, 0x10, 0xF0]

/-- Glyphs 4 to 7 of the table of 10_state.md R33. -/
def fontGlyphs4to7 : List Byte :=
  [0x90, 0x90, 0xF0, 0x10, 0x10, 0xF0, 0x80, 0xF0, 0x10, 0xF0, 0xF0, 0x80, 0xF0, 0x90, 0xF0, 0xF0, 0x10, 0x20, 0x40, 0x40]

/-- Glyphs 8 to B of the table of 10_state.md R33. -/
def fontGlyphs8toB : List Byte :=
  [0xF0, 0x90, 0xF0, 0x90, 0xF0, 0xF0, 0x90, 0xF0, 0x10, 0xF0, 0xF0, 0x90, 0xF0, 0x90, 0x90, 0xE0, 0x90, 0xE0, 0x90, 0xE0]

/-- Glyphs C to F of the table of 10_state.md R33. -/
def fontGlyphsCtoF : List Byte :=
  [0xF0, 0x80, 0x80, 0x80, 0xF0, 0xE0, 0x90, 0x90, 0x90, 0xE0, 0xF0, 0x80, 0xF0, 0x80, 0xF0, 0xF0, 0x80, 0xF0, 0x80, 0x80]

/-- The default `FONT_DATA` (10_state.md R33; 92_eei_decisions.md D15). -/
def defaultFontData : Vector Byte 80 :=
  ⟨(fontGlyphs0to3 ++ fontGlyphs4to7 ++ fontGlyphs8toB ++ fontGlyphsCtoF).toArray, rfl⟩

/-- The spec's defaults: `FONT_BASE` = 0x050, the font above, `PROTECT_RESERVED` = false (00_scope.md R7). -/
def Config.default : Config where
  fontBase := 0x050
  fontData := defaultFontData
  protectReserved := false

/-- What memory holds at an address after reset: `FONT_DATA` at `FONT_BASE`, zero elsewhere (10_state.md R38). An
address that the memory list does not mention reads as this. -/
def Config.resetByte (c : Config) (a : Nat) : Byte :=
  if h : c.fontBase ≤ a ∧ a < c.fontBase + 80 then c.fontData[a - c.fontBase]'(by omega) else 0

end Sys2Proof
end

