-- ==== Sys2Proof/Machine/State.lean ====
section
/-! DEFINITION. The state of the machine as plain data (10_state.md R20), what a step can report, and the machine right after reset (10_state.md R38). -/

namespace Sys2Proof.Machine

/-- The five kinds of BoundsFault (60_exceptions.md R201) and the one kind of DecodeFault (R202). -/
inductive FaultKind where
  | decode | fetch | memRead | memWrite | stackOverflow | stackUnderflow
deriving DecidableEq, Repr

/-- The two classes of fault (60_exceptions.md R200). -/
inductive FaultClass where
  | decodeFault | boundsFault
deriving DecidableEq, Repr

/-- The fault record (60_exceptions.md R203). The class is the kind's (`FaultRecord.cls`, log 17). -/
structure FaultRecord where
  kind : FaultKind
  /-- The address of the faulting instruction; for FETCH the PC that could not be fetched. -/
  pc : Word
  /-- The fetched word; none for FETCH. -/
  opcode : Option Word
  /-- The lowest failing address, an unbounded natural (20_memory.md R57); none for DecodeFault and the stack kinds. -/
  addr : Option Nat
deriving DecidableEq, Repr

/-- The states of the fetch_decode_execute_fsm (40_fetch_decode_execute.md R93). -/
inductive RunState where
  | running | halted
deriving DecidableEq, Repr

/-- What a STEP returns (40_fetch_decode_execute.md R92). -/
inductive Status where
  | ok
  | awaitingInput
  | fault (r : FaultRecord)
deriving DecidableEq, Repr

/-- A request to the display (40_fetch_decode_execute.md R91). -/
inductive DisplayRequest where
  | clear
  | draw (cx cy : Byte) (rows : List Byte)
deriving DecidableEq, Repr

/-- Why a step can stop for good. The spec's own faults do not: they halt the core, a state the spec describes
(60_exceptions.md R206), and the model takes them as next states (log 2). -/
inductive Fault where
  /-- Raised by `step` alone, for a STEP in HALTED when `fault` holds no record, so that there is no FAULT(record) to
  return (10_state.md R35 says HALTED holds one). No run reaches such a state. Safe (log 9). -/
  | haltedWithoutRecord
deriving DecidableEq, Repr

/-- Why an instruction has no meaning in the model. -/
inductive Refusal where
  /-- Raised by `exec`'s arm of an instruction not modelled yet; no arm is one now. Safe. -/
  | notModelled (mnemonic : String)
deriving DecidableEq, Repr

/-- Memory as a list of (address, byte) pairs in canonical form (`Memory.wf`): only the bytes that differ from the reset
contents are listed (log 8). -/
abbrev Memory := List Host.Cell

/-- The machine. The fields down to `fault` are the architectural state of 10_state.md R20; the next two are what the
core has handed out; the rest is the model's own. -/
structure State where
  /-- `mem` (20_memory.md R50), less the reset contents. -/
  mem : Memory
  /-- `V[0..15]`; V[15] is VF (10_state.md R21, R22). -/
  v : Vector Byte 16
  /-- `I` (10_state.md R24). -/
  i : Word
  /-- `PC` (10_state.md R25). -/
  pc : Word
  /-- `SP`, the index of the next free slot, 0..16 (10_state.md R27). -/
  sp : Fin 17
  /-- `stack[0..15]` (10_state.md R28). -/
  stack : Vector Word 16
  /-- `DT` (10_state.md R29). -/
  dt : Byte
  /-- `ST` (10_state.md R30). -/
  st : Byte
  /-- `run_state` (10_state.md R35). -/
  runState : RunState
  /-- `fault` (10_state.md R35). -/
  fault : Option FaultRecord
  /-- The status the last STEP returned (40_fetch_decode_execute.md R92); none before the first (log 6). -/
  status : Option Status
  /-- The display requests made so far, oldest first (40_fetch_decode_execute.md R91; log 7). -/
  requests : List DisplayRequest
  /-- The parameters; nothing changes them (log 1). -/
  cfg : Config
  /-- The operations the driver is known to invoke, the next one first; after them it invokes any (log 3). -/
  pending : List DriverOp
  /-- How many operations there were: the index of the free values (log 3, log 4). -/
  draws : Nat
deriving DecidableEq, Repr

/-- The state after reset (10_state.md R38), for given parameters. -/
def State.resetWith (c : Config) : State where
  mem := []
  v := Vector.replicate 16 0
  i := 0
  pc := BitVec.ofNat 16 origin
  sp := 0
  stack := Vector.replicate 16 0
  dt := 0
  st := 0
  runState := .running
  fault := none
  status := none
  requests := []
  cfg := c
  pending := []
  draws := 0

/-- The machine right after reset, with the spec's default parameters. -/
def State.reset : State := State.resetWith Config.default

end Sys2Proof.Machine
end

