-- ==== Sys2Proof/Machine/Flags.lean ====
section
/-! DEFINITION. The alu_with_flags: results on unbounded naturals narrowed to 8 bits, and every flag that VF takes
(41_arithmetic_logic.md R110 to R112). -/

namespace Sys2Proof.Machine

/-- A flag as VF holds it, 0 or 1 (41_arithmetic_logic.md R111). -/
def flagByte (b : Bool) : Byte := if b then 1 else 0

/-- `trunc_8(a + b)` (41_arithmetic_logic.md R110). -/
def add8 (a b : Byte) : Byte := BitVec.ofNat 8 (a.toNat + b.toNat)

/-- `trunc_8(a + 256 - b)` (41_arithmetic_logic.md R110). -/
def sub8 (a b : Byte) : Byte := BitVec.ofNat 8 (a.toNat + 256 - b.toNat)

/-- The carry out of bit 7 (41_arithmetic_logic.md R119). -/
def carryOut (a b : Byte) : Bool := decide (0xFF < a.toNat + b.toNat)

/-- No borrow in `a - b` (41_arithmetic_logic.md R120, R122). -/
def notBorrow (a b : Byte) : Bool := decide (b.toNat ≤ a.toNat)

/-- `a >> 1` (41_arithmetic_logic.md R121). -/
def shiftRight1 (a : Byte) : Byte := a >>> 1

/-- The bit a right shift moves out, bit 0 before the shift (41_arithmetic_logic.md R121). -/
def bitOutRight (a : Byte) : Bool := a.getLsbD 0

/-- `trunc_8(a << 1)` (41_arithmetic_logic.md R123). -/
def shiftLeft1 (a : Byte) : Byte := a <<< 1

/-- The bit a left shift moves out, bit 7 before the shift (41_arithmetic_logic.md R123). -/
def bitOutLeft (a : Byte) : Bool := a.getLsbD 7

end Sys2Proof.Machine
end

