-- ==== Sys2Proof/Machine/Ops.lean ====
section
/-! DEFINITION. The shared operations: memory and its bounds check, the V registers, the stack, completing an
instruction, taking a fault, and fetching. Every meaning is written over these. -/

namespace Sys2Proof.Machine

/-! ### Memory as a list (20_memory.md R50, R61) -/

/-- The byte listed for an address, if any. -/
def Memory.lookup : Memory → Nat → Option Byte
  | [], _ => none
  | (k, b) :: m, a => if k = a then some b else Memory.lookup m a

/-- The list without its entries for an address. -/
def Memory.erase (m : Memory) (a : Nat) : Memory := m.filter fun p => p.1 ≠ a

/-- The list with one more entry, before the first entry of a higher address. -/
def Memory.insert (a : Nat) (b : Byte) : Memory → Memory
  | [] => [(a, b)]
  | p :: m => if a < p.1 then (a, b) :: p :: m else p :: Memory.insert a b m

/-- One byte of memory: as listed, else as reset left it (log 8). -/
def Memory.read (c : Config) (m : Memory) (a : Nat) : Byte := (Memory.lookup m a).getD (c.resetByte a)

/-- Write one byte; writing what reset left there removes the entry, so that equal memories are equal lists. -/
def Memory.write (c : Config) (m : Memory) (a : Nat) (b : Byte) : Memory :=
  if b = c.resetByte a then Memory.erase m a else Memory.insert a b (Memory.erase m a)

/-- The canonical form: addresses strictly rising, inside memory, and no entry that says what reset left there. -/
abbrev Memory.wf (c : Config) (m : Memory) : Prop :=
  m.Pairwise (fun p q => p.1 < q.1) ∧ ∀ p ∈ m, p.1 < memSize ∧ p.2 ≠ c.resetByte p.1

/-! ### Memory access (20_memory.md R55 to R57, R67) -/

/-- The byte at an address below `MEM_SIZE`; the accesses below check that bound first (log 15). -/
def State.readByte (s : State) (a : Nat) : Byte := Memory.read s.cfg s.mem a

/-- Write the byte at an address; the accesses below check the address first. -/
def State.storeByte (s : State) (a : Nat) (b : Byte) : State := { s with mem := Memory.write s.cfg s.mem a b }

/-- Write bytes at ascending addresses (20_memory.md R54). -/
def State.storeBytes (s : State) (a : Nat) : List Byte → State
  | [] => s
  | b :: bs => (s.storeByte a b).storeBytes (a + 1) bs

/-- An address outside memory (20_memory.md R57). -/
def outsideMemory (a : Nat) : Bool := decide (memSize ≤ a)

/-- An address that an instruction may not write: outside memory, or, under `PROTECT_RESERVED`, below `ORIGIN`
(20_memory.md R57, R67). -/
def writeForbidden (c : Config) (a : Nat) : Bool := outsideMemory a || (c.protectReserved && decide (a < origin))

/-- The first address of `a, a+1, ..., a+n-1` that fails a check, in ascending order (60_exceptions.md R205). -/
def firstFailing (bad : Nat → Bool) : Nat → Nat → Option Nat
  | _, 0 => none
  | a, n + 1 => if bad a then some a else firstFailing bad (a + 1) n

/-- `MemRead(a, n)`: the bytes, or the lowest failing address (20_memory.md R55). -/
def State.memRead (s : State) (a n : Nat) : Except Nat (List Byte) :=
  match firstFailing outsideMemory a n with
  | some bad => .error bad
  | none => .ok ((List.range n).map fun k => s.readByte (a + k))

/-- `MemWrite(a, n, bytes)`: every check before any write (20_memory.md R56); the state written, or the lowest failing
address. -/
def State.memWrite (s : State) (a : Nat) (bytes : List Byte) : Except Nat State :=
  match firstFailing (writeForbidden s.cfg) a bytes.length with
  | some bad => .error bad
  | none => .ok (s.storeBytes a bytes)

/-! ### V registers (10_state.md R21 to R23) -/

/-- Read `V[x]`. -/
def State.readV (s : State) (x : Nibble) : Byte := s.v[x.toNat]'x.isLt

/-- Write `V[x]`. -/
def State.writeV (s : State) (x : Nibble) (b : Byte) : State := { s with v := s.v.set x.toNat b x.isLt }

/-- The index of VF, the flag register (00_scope.md R7 `FLAG_REG`). -/
def flagReg : Nibble := 0xF

/-- Write VF: the last write of every VF-setting instruction (40_fetch_decode_execute.md R95). -/
def State.writeVF (s : State) (b : Byte) : State := s.writeV flagReg b

/-- `V[0], V[1], ..., V[x]` (43_memory_index_sprite.md R165). -/
def State.regsUpTo (s : State) (x : Nibble) : List Byte :=
  (List.range (x.toNat + 1)).map fun k => s.readV (BitVec.ofNat 4 k)

/-- `V[k] <- bytes[0], V[k+1] <- bytes[1], ...` (43_memory_index_sprite.md R166). -/
def State.loadRegs (s : State) (k : Nat) : List Byte → State
  | [] => s
  | b :: bs => (s.writeV (BitVec.ofNat 4 k) b).loadRegs (k + 1) bs

/-! ### The stack (10_state.md R27, R28) -/

/-- Push a return address: none when 16 are already there (42_control_flow.md R144; 90_conflicts.md C9). -/
def State.push (s : State) (w : Word) : Option State :=
  if h : s.sp.val < 16 then
    some { s with stack := s.stack.set s.sp.val w h, sp := ⟨s.sp.val + 1, by omega⟩ }
  else none

/-- Pop the return address on top, leaving its slot as it was: none when the stack is empty (42_control_flow.md R145). -/
def State.pop (s : State) : Option (Word × State) :=
  if h : 0 < s.sp.val then
    some (s.stack[s.sp.val - 1]'(by omega), { s with sp := ⟨s.sp.val - 1, by omega⟩ })
  else none

/-! ### Completing an instruction (40_fetch_decode_execute.md R94, R95, R97) -/

/-- `pc_next`, the address after this instruction (00_scope.md R11). -/
def State.pcNext (s : State) : Word := s.pc + 2

/-- The new PC of a skip: `pc0 + 4` when the condition holds, else `pc0 + 2` (42_control_flow.md R141). -/
def State.skipTarget (s : State) (cond : Bool) : Word := if cond then s.pc + 4 else s.pc + 2

/-- Record a display request (40_fetch_decode_execute.md R91). -/
def State.request (s : State) (r : DisplayRequest) : State := { s with requests := s.requests ++ [r] }

/-- The writes applied, `PC <- pc_new` and the status OK (40_fetch_decode_execute.md R94). -/
def complete (t : State) (pcNew : Word) : Host.Outcome State Fault Refusal :=
  .next { t with pc := pcNew, status := some .ok }

/-! ### Faults (60_exceptions.md R200 to R207) -/

/-- The class of a kind (60_exceptions.md R200). -/
def FaultKind.cls : FaultKind → FaultClass
  | .decode => .decodeFault
  | .fetch | .memRead | .memWrite | .stackOverflow | .stackUnderflow => .boundsFault

/-- The code of a kind (60_exceptions.md R201, R202). -/
def FaultKind.code : FaultKind → Nat
  | .decode => 0
  | .fetch => 1
  | .memRead => 2
  | .memWrite => 3
  | .stackOverflow => 4
  | .stackUnderflow => 5

/-- The code of a class (60_exceptions.md R203). -/
def FaultClass.code : FaultClass → Nat
  | .decodeFault => 1
  | .boundsFault => 2

/-- The `class` field of a record (60_exceptions.md R203). -/
def FaultRecord.cls (r : FaultRecord) : FaultClass := r.kind.cls

/-- The record of a word that is no instruction (60_exceptions.md R202, R203). -/
def decodeRecord (pc0 op : Word) : FaultRecord := { kind := .decode, pc := pc0, opcode := some op, addr := none }

/-- The record of a fetch out of bounds (60_exceptions.md R201, R203). -/
def fetchRecord (pc0 : Word) : FaultRecord :=
  { kind := .fetch, pc := pc0, opcode := none
    addr := some (if memSize ≤ pc0.toNat then pc0.toNat else pc0.toNat + 1) }

/-- The record of an instruction's own check. The word recorded is the instruction's encoding, which is the word that
was fetched (60_exceptions.md R203; log 10). -/
def boundsRecord (kind : FaultKind) (s : State) (i : Instr) (addr : Option Nat) : FaultRecord :=
  { kind := kind, pc := s.pc, opcode := some (encode i), addr := addr }

/-- Fault entry: nothing is committed and PC stays; the core halts with the record and returns it
(40_fetch_decode_execute.md R101; 60_exceptions.md R206). -/
def enterFault (r : FaultRecord) (s : State) : State :=
  { s with runState := .halted, fault := some r, status := some (.fault r) }

/-- Raise a fault: the machine goes on, halted (log 2). There is no return from a fault but RESET (60_exceptions.md
R207). -/
def raiseFault (r : FaultRecord) (s : State) : Host.Outcome State Fault Refusal := .next (enterFault r s)

/-- A STEP in HALTED: the same FAULT again, nothing changed (40_fetch_decode_execute.md R100). -/
def haltedStep (s : State) : Host.Outcome State Fault Refusal :=
  match s.fault with
  | some r => .next { s with status := some (.fault r) }
  | none => .fault .haltedWithoutRecord

/-! ### Fetch (40_fetch_decode_execute.md R96) -/

/-- The word at PC, big-endian, or the record of a fetch out of bounds. -/
def fetch (s : State) : Except FaultRecord Word :=
  if s.pc.toNat + 1 < memSize then
    .ok (wordOfBytes (s.readByte s.pc.toNat) (s.readByte (s.pc.toNat + 1)))
  else .error (fetchRecord s.pc)

/-- Go on with the next state of an outcome. -/
def mapNext (f : State → State) : Host.Outcome State Fault Refusal → Host.Outcome State Fault Refusal
  | .next t => .next (f t)
  | .fault r => .fault r
  | .refused r => .refused r

end Sys2Proof.Machine
end

