-- ==== Sys2Proof/Machine/Operands.lean ====
section
/-! DEFINITION. The operand forms: immediates, the data addresses of the memory_address_generator, the decimal digits,
and the collaborators' answers. -/

namespace Sys2Proof.Machine

/-- `zext_16(nnn)` (30_encoding.md R73). -/
def zext12 (nnn : Addr12) : Word := nnn.zeroExtend 16

/-- `zext_16(b)` (00_scope.md R9). -/
def zext8 (b : Byte) : Word := b.zeroExtend 16

/-- `I + k`, an unbounded natural (20_memory.md R57, R58). -/
def State.dataAddr (s : State) (k : Nat) : Nat := s.i.toNat + k

/-- `trunc_16(I + V[x])` (43_memory_index_sprite.md R162). -/
def indexSum (i : Word) (b : Byte) : Word := BitVec.ofNat 16 (i.toNat + b.toNat)

/-- `FONT_BASE + 5 * (V[x] & 0xF)`: the low nibble selects the glyph (43_memory_index_sprite.md R163). -/
def glyphAddr (c : Config) (b : Byte) : Word := BitVec.ofNat 16 (c.fontBase + 5 * (b.toNat % 16))

/-- The decimal digits hundreds, tens, units (43_memory_index_sprite.md R164). -/
def bcdDigits (b : Byte) : List Byte :=
  [BitVec.ofNat 8 (b.toNat / 100), BitVec.ofNat 8 (b.toNat / 10 % 10), BitVec.ofNat 8 (b.toNat % 10)]

/-! ### Answers of the collaborators (40_fetch_decode_execute.md R91) -/

/-- The operation the driver invokes next: the first one listed, else any (44_timers_external.md R188; log 3). -/
def State.nextOp (s : State) : DriverOp :=
  match s.pending with
  | [] => Config.freeOp s.draws
  | op :: _ => op

/-- The answers of the STEP under way. -/
def State.answers (s : State) : Env :=
  match s.nextOp with
  | .step e => e
  | .reset | .load _ | .tick => Config.freeEnv s.draws

/-- `Input.key_down(k)`: a key value of 16 or more names no key and the host must answer false
(44_timers_external.md R181, R191; log 5). -/
def keyDown (e : Env) (k : Byte) : Bool := decide (k.toNat < 16) && e.keysDown.getLsbD k.toNat

/-- `Display.draw`'s answer: for an empty sprite the host must answer false (44_timers_external.md R191; log 5). -/
def drawAnswer (e : Env) (rows : List Byte) : Bool := !rows.isEmpty && e.collided

end Sys2Proof.Machine
end

