-- ==== Sys2Proof/Machine/Arithmetic.lean ====
section
/-! DEFINITION. Register loads, the ALU group and the random byte (41_arithmetic_logic.md). Operands are read from the
state at the start of the step; VF is written last (40_fetch_decode_execute.md R95). -/

namespace Sys2Proof.Machine

/-- 6xnn (41_arithmetic_logic.md R113). -/
def execLdVxNn (x : Nibble) (nn : Byte) (s : State) : Host.Outcome State Fault Refusal :=
  complete (s.writeV x nn) s.pcNext

/-- 7xnn: no flag (41_arithmetic_logic.md R114). -/
def execAddVxNn (x : Nibble) (nn : Byte) (s : State) : Host.Outcome State Fault Refusal :=
  complete (s.writeV x (add8 (s.readV x) nn)) s.pcNext

/-- 8xy0 (41_arithmetic_logic.md R115). -/
def execLdVxVy (x y : Nibble) (s : State) : Host.Outcome State Fault Refusal :=
  complete (s.writeV x (s.readV y)) s.pcNext

/-- 8xy1 (41_arithmetic_logic.md R116). -/
def execOrVxVy (x y : Nibble) (s : State) : Host.Outcome State Fault Refusal :=
  complete (s.writeV x (s.readV x ||| s.readV y)) s.pcNext

/-- 8xy2 (41_arithmetic_logic.md R117). -/
def execAndVxVy (x y : Nibble) (s : State) : Host.Outcome State Fault Refusal :=
  complete (s.writeV x (s.readV x &&& s.readV y)) s.pcNext

/-- 8xy3 (41_arithmetic_logic.md R118). -/
def execXorVxVy (x y : Nibble) (s : State) : Host.Outcome State Fault Refusal :=
  complete (s.writeV x (s.readV x ^^^ s.readV y)) s.pcNext

/-- 8xy4: VF = carry (41_arithmetic_logic.md R119). -/
def execAddVxVy (x y : Nibble) (s : State) : Host.Outcome State Fault Refusal :=
  complete
    ((s.writeV x (add8 (s.readV x) (s.readV y))).writeVF (flagByte (carryOut (s.readV x) (s.readV y)))) s.pcNext

/-- 8xy5: VF = not-borrow (41_arithmetic_logic.md R120). -/
def execSubVxVy (x y : Nibble) (s : State) : Host.Outcome State Fault Refusal :=
  complete
    ((s.writeV x (sub8 (s.readV x) (s.readV y))).writeVF (flagByte (notBorrow (s.readV x) (s.readV y)))) s.pcNext

/-- 8xy6: V[x] is shifted, `y` ignored; VF = the bit shifted out (41_arithmetic_logic.md R121). -/
def execShrVxVy (x _y : Nibble) (s : State) : Host.Outcome State Fault Refusal :=
  complete ((s.writeV x (shiftRight1 (s.readV x))).writeVF (flagByte (bitOutRight (s.readV x)))) s.pcNext

/-- 8xy7: V[y] - V[x]; VF = not-borrow (41_arithmetic_logic.md R122). -/
def execSubnVxVy (x y : Nibble) (s : State) : Host.Outcome State Fault Refusal :=
  complete
    ((s.writeV x (sub8 (s.readV y) (s.readV x))).writeVF (flagByte (notBorrow (s.readV y) (s.readV x)))) s.pcNext

/-- 8xyE: V[x] is shifted, `y` ignored; VF = the bit shifted out (41_arithmetic_logic.md R123). -/
def execShlVxVy (x _y : Nibble) (s : State) : Host.Outcome State Fault Refusal :=
  complete ((s.writeV x (shiftLeft1 (s.readV x))).writeVF (flagByte (bitOutLeft (s.readV x)))) s.pcNext

/-- Cxnn: the random source's byte under the mask (41_arithmetic_logic.md R125). -/
def execRndVxNn (x : Nibble) (nn : Byte) (s : State) : Host.Outcome State Fault Refusal :=
  complete (s.writeV x (s.answers.random &&& nn)) s.pcNext

end Sys2Proof.Machine
end

