-- ==== Sys2Proof/Machine/Control.lean ====
section
/-! DEFINITION. Jumps, call and return, and the register skips (42_control_flow.md). -/

namespace Sys2Proof.Machine

/-- 00EE (42_control_flow.md R145). -/
def execRet (s : State) : Host.Outcome State Fault Refusal :=
  match s.pop with
  | some (target, t) => complete t target
  | none => raiseFault (boundsRecord .stackUnderflow s .ret none) s

/-- 1nnn (42_control_flow.md R142). -/
def execJpNnn (nnn : Addr12) (s : State) : Host.Outcome State Fault Refusal := complete s (zext12 nnn)

/-- 2nnn (42_control_flow.md R144). -/
def execCallNnn (nnn : Addr12) (s : State) : Host.Outcome State Fault Refusal :=
  match s.push s.pcNext with
  | some t => complete t (zext12 nnn)
  | none => raiseFault (boundsRecord .stackOverflow s (.callNnn nnn) none) s

/-- 3xnn (42_control_flow.md R146). -/
def execSeVxNn (x : Nibble) (nn : Byte) (s : State) : Host.Outcome State Fault Refusal :=
  complete s (s.skipTarget (s.readV x == nn))

/-- 4xnn (42_control_flow.md R147). -/
def execSneVxNn (x : Nibble) (nn : Byte) (s : State) : Host.Outcome State Fault Refusal :=
  complete s (s.skipTarget (s.readV x != nn))

/-- 5xy0 (42_control_flow.md R148; 90_conflicts.md C1). -/
def execSeVxVy (x y : Nibble) (s : State) : Host.Outcome State Fault Refusal :=
  complete s (s.skipTarget (s.readV x == s.readV y))

/-- 9xy0 (42_control_flow.md R149). -/
def execSneVxVy (x y : Nibble) (s : State) : Host.Outcome State Fault Refusal :=
  complete s (s.skipTarget (s.readV x != s.readV y))

/-- Bnnn: the sum is not truncated; it is at most 0x10FE (42_control_flow.md R143). -/
def execJpV0Nnn (nnn : Addr12) (s : State) : Host.Outcome State Fault Refusal :=
  complete s (zext12 nnn + zext8 (s.readV 0x0))

end Sys2Proof.Machine
end

