-- ==== Sys2Proof/Machine/External.lean ====
section
/-! DEFINITION. The display clear, the key instructions and the timer instructions (44_timers_external.md). -/

namespace Sys2Proof.Machine

/-- 00E0: one clear request and nothing else (44_timers_external.md R180). -/
def execCls (s : State) : Host.Outcome State Fault Refusal := complete (s.request .clear) s.pcNext

/-- Ex9E (44_timers_external.md R181). -/
def execSkpVx (x : Nibble) (s : State) : Host.Outcome State Fault Refusal :=
  complete s (s.skipTarget (keyDown s.answers (s.readV x)))

/-- ExA1 (44_timers_external.md R182). -/
def execSknpVx (x : Nibble) (s : State) : Host.Outcome State Fault Refusal :=
  complete s (s.skipTarget (!keyDown s.answers (s.readV x)))

/-- Fx07: DT as it is at the read (44_timers_external.md R184). -/
def execLdVxDt (x : Nibble) (s : State) : Host.Outcome State Fault Refusal := complete (s.writeV x s.dt) s.pcNext

/-- The state after Fx0A: with no key event the wait goes on, nothing changed and PC on the same word; with one,
`V[x] <- e` (44_timers_external.md R183). -/
def keyWait (x : Nibble) (event : Option Nibble) (s : State) : State :=
  match event with
  | none => { s with status := some .awaitingInput }
  | some e => { s.writeV x (e.zeroExtend 8) with pc := s.pcNext, status := some .ok }

/-- Fx0A (44_timers_external.md R183). -/
def execLdVxK (x : Nibble) (s : State) : Host.Outcome State Fault Refusal := .next (keyWait x s.answers.keyEvent s)

/-- Fx15 (44_timers_external.md R185). -/
def execLdDtVx (x : Nibble) (s : State) : Host.Outcome State Fault Refusal :=
  complete { s with dt := s.readV x } s.pcNext

/-- Fx18 (44_timers_external.md R186). -/
def execLdStVx (x : Nibble) (s : State) : Host.Outcome State Fault Refusal :=
  complete { s with st := s.readV x } s.pcNext

end Sys2Proof.Machine
end

