-- ==== Sys2Proof/Machine/Index.lean ====
section
/-! DEFINITION. The index register, the memory transfers and the sprite draw (43_memory_index_sprite.md). None of the
transfers changes I (R160). -/

namespace Sys2Proof.Machine

/-- Annn (43_memory_index_sprite.md R161). -/
def execLdINnn (nnn : Addr12) (s : State) : Host.Outcome State Fault Refusal :=
  complete { s with i := zext12 nnn } s.pcNext

/-- Dxyn: the sprite is read first; then one draw request with the raw coordinates; VF = the collision answer
(43_memory_index_sprite.md R167). -/
def execDrwVxVyN (x y n : Nibble) (s : State) : Host.Outcome State Fault Refusal :=
  match s.memRead (s.dataAddr 0) n.toNat with
  | .ok rows =>
    complete
      ((s.request (.draw (s.readV x) (s.readV y) rows)).writeVF (flagByte (drawAnswer s.answers rows))) s.pcNext
  | .error a => raiseFault (boundsRecord .memRead s (.drwVxVyN x y n) (some a)) s

/-- Fx1E: a 16-bit sum, no flag, no fault (43_memory_index_sprite.md R162). -/
def execAddIVx (x : Nibble) (s : State) : Host.Outcome State Fault Refusal :=
  complete { s with i := indexSum s.i (s.readV x) } s.pcNext

/-- Fx29 (43_memory_index_sprite.md R163). -/
def execLdFVx (x : Nibble) (s : State) : Host.Outcome State Fault Refusal :=
  complete { s with i := glyphAddr s.cfg (s.readV x) } s.pcNext

/-- Fx33 (43_memory_index_sprite.md R164). -/
def execLdBVx (x : Nibble) (s : State) : Host.Outcome State Fault Refusal :=
  match s.memWrite (s.dataAddr 0) (bcdDigits (s.readV x)) with
  | .ok t => complete t s.pcNext
  | .error a => raiseFault (boundsRecord .memWrite s (.ldBVx x) (some a)) s

/-- Fx55 (43_memory_index_sprite.md R165). -/
def execLdMiVx (x : Nibble) (s : State) : Host.Outcome State Fault Refusal :=
  match s.memWrite (s.dataAddr 0) (s.regsUpTo x) with
  | .ok t => complete t s.pcNext
  | .error a => raiseFault (boundsRecord .memWrite s (.ldMiVx x) (some a)) s

/-- Fx65 (43_memory_index_sprite.md R166). -/
def execLdVxMi (x : Nibble) (s : State) : Host.Outcome State Fault Refusal :=
  match s.memRead (s.dataAddr 0) (x.toNat + 1) with
  | .ok bytes => complete (s.loadRegs 0 bytes) s.pcNext
  | .error a => raiseFault (boundsRecord .memRead s (.ldVxMi x) (some a)) s

end Sys2Proof.Machine
end

