-- ==== Sys2Proof/Machine/Driver.lean ====
section
/-! DEFINITION. The driver's side of the interface (40_fetch_decode_execute.md R90): TICK, LOAD, RESET, the buzzer
output, and taking an operation off the driver's list. -/

namespace Sys2Proof

/-- The operation is a STEP. -/
def DriverOp.isStep : DriverOp → Bool
  | .step _ => true
  | .reset | .load _ | .tick => false

/-- The key event that the host delivers with the operation: only a STEP delivers one (40_fetch_decode_execute.md R91). -/
def DriverOp.keyEvent : DriverOp → Option Nibble
  | .step e => e.keyEvent
  | .reset | .load _ | .tick => none

end Sys2Proof

namespace Sys2Proof.Machine

/-- A timer one tick later, floored at 0 (44_timers_external.md R187). -/
def tickTimer (t : Byte) : Byte := if 0 < t.toNat then t - 1 else t

/-- `TICK`: the timer_decrement_engine (44_timers_external.md R187). -/
def performTick (s : State) : State := { s with dt := tickTimer s.dt, st := tickTimer s.st }

/-- `LOAD` from its byte k on: each byte to `ORIGIN + k` while that lies in memory (44_timers_external.md R190). -/
def loadFrom (s : State) (k : Nat) : List Byte → State
  | [] => s
  | b :: bs => loadFrom (if origin + k < memSize then s.storeByte (origin + k) b else s) (k + 1) bs

/-- `LOAD(bytes)` (44_timers_external.md R190). -/
def performLoad (bytes : List Byte) (s : State) : State := loadFrom s 0 bytes

/-- `RESET` (70_reset_and_hazards.md R230): every piece of the core's state at its reset value. The parameters, the
driver's list, the count of operations and the requests already made are no state of the core and stay (log 13). -/
def performReset (s : State) : State :=
  { State.resetWith s.cfg with requests := s.requests, pending := s.pending, draws := s.draws }

/-- The buzzer output, `ST != 0` (44_timers_external.md R189). -/
def State.buzzer (s : State) : Bool := s.st != 0

/-- The operation under way is done: it comes off the driver's list, and the next one has free values of its own (log 3,
log 4, log 16). -/
def retireOp (s : State) : State := { s with pending := s.pending.tail, draws := s.draws + 1 }

/-- The operations from the next STEP on: the first one queued, else a STEP with free answers (log 12). -/
def State.stepFirst (s : State) : List DriverOp :=
  match s.pending.dropWhile fun op => !op.isStep with
  | [] => [.step (Config.freeEnv s.draws)]
  | ops => ops

/-- The state with a word where the next STEP fetches, and all that this takes: a running core, a PC at which a word
fits (ORIGIN where it did not), and a STEP as the driver's next operation (log 12). -/
def placeFetchWord (s : State) (w : Word) : State :=
  let pc := if s.pc.toNat + 1 < memSize then s.pc else BitVec.ofNat 16 origin
  { (s.storeBytes pc.toNat [highByte w, lowByte w]) with
    pc := pc
    runState := .running
    fault := none
    pending := s.stepFirst }

end Sys2Proof.Machine
end

