-- ==== Sys2Proof/Machine/Step.lean ====
section
/-! DEFINITION. One step of the machine is one operation of the driver (40_fetch_decode_execute.md R90); a STEP runs the
phases of R94. -/

namespace Sys2Proof.Machine

/-- The phases of STEP: the HALTED check, fetch, decode, execute, in the priority of 60_exceptions.md R205
(40_fetch_decode_execute.md R94). -/
def runInstr (s : State) : Host.Outcome State Fault Refusal :=
  match s.runState with
  | .halted => haltedStep s
  | .running =>
    match fetch s with
    | .error r => raiseFault r s
    | .ok op =>
      match decode op with
      | .error _ => raiseFault (decodeRecord s.pc op) s
      | .ok i => exec i s

/-- One operation of the driver: the first one listed, else any (log 3). -/
def step (s : State) : Host.Outcome State Fault Refusal :=
  match s.nextOp with
  | .reset => .next (retireOp (performReset s))
  | .load bytes => .next (retireOp (performLoad bytes s))
  | .tick => .next (retireOp (performTick s))
  | .step _ => mapNext retireOp (runInstr s)

/-- The state with the word of `nbits` bits (numbered as spec/opcode_table.json numbers them) where the next step fetches
its instruction (log 12). -/
def State.withFetchWord (s : State) (nbits w : Nat) : State := placeFetchWord s (tableWord nbits w)

end Sys2Proof.Machine
end

