-- ==== Sys2Proof/Safety.lean ====
section
/-! DEFINITION. What a good state is, and how a run can end (70_reset_and_hazards.md R239). -/

namespace Sys2Proof.Machine

/-- What every step keeps, and reset has. -/
structure Inv (s : State) : Prop where
  /-- The font lies in the reserved region (10_state.md R33). -/
  cfgWellFormed : s.cfg.wellFormed = true
  /-- Memory is in its canonical form, so that equal memories are equal lists (log 8). -/
  memCanonical : Memory.wf s.cfg s.mem
  /-- `fault` holds a record exactly in HALTED (10_state.md R35). -/
  faultIffHalted : s.fault.isSome ↔ s.runState = .halted
  /-- The record's pc is the address of the faulting instruction, where PC stays (40_fetch_decode_execute.md R101). -/
  faultPc : ∀ r, s.fault = some r → r.pc = s.pc
  /-- The largest PC any instruction forms is 0x10FE (10_state.md R25). -/
  pcBound : s.pc.toNat ≤ 0x10FE
  /-- A return address is at most 0x1000: it is the address after a call that was fetched (42_control_flow.md R144). -/
  stackBound : ∀ k : Fin 16, (s.stack[k]).toNat ≤ 0x1000

/-- End of a run by a fault (70_reset_and_hazards.md R239). -/
def endedByFault (s : State) : Bool := s.runState == .halted

/-- The instruction at PC, when the core is running and a legal word stands there. -/
def State.instrAtPc (s : State) : Option Instr :=
  match s.runState, fetch s with
  | .running, .ok op =>
    match decode op with
    | .ok i => some i
    | .error _ => none
  | _, _ => none

/-- A self-loop: the word at PC is `1nnn` with `nnn = PC` (70_reset_and_hazards.md R239). -/
def inSelfLoop (s : State) : Bool :=
  match s.instrAtPc with
  | some (.jpNnn nnn) => nnn.toNat == s.pc.toNat
  | _ => false

/-- Waiting: the word at PC is an Fx0A, and the host delivers no key event with the driver's next operation
(70_reset_and_hazards.md R239). -/
def waitingForKey (s : State) : Bool :=
  match s.instrAtPc with
  | some (.ldVxK _) => s.nextOp.keyEvent.isNone
  | _ => false

/-- The state after n operations of the driver, if each takes a next state. -/
def stateAfter : Nat → State → Option State
  | 0, s => some s
  | n + 1, s =>
    match step s with
    | .next t => stateAfter n t
    | .fault _ | .refused _ => none

end Sys2Proof.Machine
end

