-- ==== Sys2Proof/Certificates/Slice0/Obligations.lean ====
section
/-! DEFINITION. The statements about the model, each a Prop named under Obligations, and the few words they are written
in. A statement of an instruction gives its word bit by bit, what it does, and its frame. -/

namespace Sys2Proof.Machine

/-- The parts of the core's state and output that an instruction may write; PC, which every instruction may change, is
said in each statement. -/
inductive Part where
  | v | i | sp | stack | dt | st | mem | requests
deriving DecidableEq, Repr

/-- The part is the same in both states, memory read byte by byte. -/
def Part.Same (s t : State) : Part → Prop
  | .v => ∀ r, t.readV r = s.readV r
  | .i => t.i = s.i
  | .sp => t.sp = s.sp
  | .stack => ∀ k : Fin 16, t.stack[k] = s.stack[k]
  | .dt => t.dt = s.dt
  | .st => t.st = s.st
  | .mem => ∀ a, t.readByte a = s.readByte a
  | .requests => t.requests = s.requests

/-- The frame of an instruction that completes: every part but those listed is as before, the run state and the fault
record too, and the status returned is OK. -/
def KeepsAllBut (ps : List Part) (s t : State) : Prop :=
  (∀ p, p ∉ ps → Part.Same s t p) ∧ t.runState = s.runState ∧ t.fault = s.fault ∧ t.status = some .ok

/-- Every V register but one is as before. -/
def KeepsRegsBut (x : Nibble) (s t : State) : Prop := ∀ r, r ≠ x → t.readV r = s.readV r

/-- Every V register but `V[x]` and VF is as before. -/
def KeepsRegsButVF (x : Nibble) (s t : State) : Prop := ∀ r, r ≠ x → r ≠ 0xF → t.readV r = s.readV r

/-- A precise fault (40_fetch_decode_execute.md R101, decisions D8, D9, D22): nothing is committed, PC stays, the core
halts with the record and returns it. -/
def HaltsWith (kind : FaultKind) (opcode : Option Word) (addr : Option Nat) (s t : State) : Prop :=
  t = { s with
        runState := .halted
        fault := some { kind := kind, pc := s.pc, opcode := opcode, addr := addr }
        status := some (.fault { kind := kind, pc := s.pc, opcode := opcode, addr := addr }) }

/-- The driver's next operation is a STEP (log 3). -/
def StepIsNext (s : State) : Prop := s.nextOp.isStep = true

/-- The V registers an instruction may write (10_state.md R21). -/
def writesReg : Instr → Nibble → Prop
  | .ldVxNn x _, r | .addVxNn x _, r | .ldVxVy x _, r | .orVxVy x _, r | .andVxVy x _, r | .xorVxVy x _, r
  | .rndVxNn x _, r | .ldVxDt x, r | .ldVxK x, r => r = x
  | .addVxVy x _, r | .subVxVy x _, r | .shrVxVy x _, r | .subnVxVy x _, r | .shlVxVy x _, r => r = x ∨ r = 0xF
  | .drwVxVyN _ _ _, r => r = 0xF
  | .ldVxMi x, r => r.toNat ≤ x.toNat
  | .cls, _ | .ret, _ | .jpNnn _, _ | .callNnn _, _ | .seVxNn _ _, _ | .sneVxNn _ _, _ | .seVxVy _ _, _
  | .sneVxVy _ _, _ | .ldINnn _, _ | .jpV0Nnn _, _ | .skpVx _, _ | .sknpVx _, _ | .ldDtVx _, _ | .ldStVx _, _
  | .addIVx _, _ | .ldFVx _, _ | .ldBVx _, _ | .ldMiVx _, _ => False

/-- The parts other than V that an instruction may write: I (10_state.md R24), SP and the stack (R27, R28), the timers
(R29, R30), memory (20_memory.md R51), the display (40_fetch_decode_execute.md R91). -/
def writesPart : Instr → Part → Prop
  | .ldINnn _, p | .addIVx _, p | .ldFVx _, p => p = .i
  | .callNnn _, p => p = .sp ∨ p = .stack
  | .ret, p => p = .sp
  | .ldDtVx _, p => p = .dt
  | .ldStVx _, p => p = .st
  | .ldBVx _, p | .ldMiVx _, p => p = .mem
  | .cls, p => p = .requests
  | .drwVxVyN _ _ _, p => p = .requests ∨ p = .v
  | .ldVxNn _ _, p | .addVxNn _ _, p | .ldVxVy _ _, p | .orVxVy _ _, p | .andVxVy _ _, p | .xorVxVy _ _, p
  | .addVxVy _ _, p | .subVxVy _ _, p | .shrVxVy _ _, p | .subnVxVy _ _, p | .shlVxVy _ _, p | .rndVxNn _ _, p
  | .ldVxDt _, p | .ldVxK _, p | .ldVxMi _, p => p = .v
  | .jpNnn _, _ | .jpV0Nnn _, _ | .seVxNn _ _, _ | .sneVxNn _ _, _ | .seVxVy _ _, _ | .sneVxVy _ _, _
  | .skpVx _, _ | .sknpVx _, _ => False

/-- The fault kind an instruction can raise of its own (60_exceptions.md R204). -/
def raisesKind : Instr → Option FaultKind
  | .callNnn _ => some .stackOverflow
  | .ret => some .stackUnderflow
  | .drwVxVyN _ _ _ | .ldVxMi _ => some .memRead
  | .ldBVx _ | .ldMiVx _ => some .memWrite
  | .cls | .jpNnn _ | .seVxNn _ _ | .sneVxNn _ _ | .seVxVy _ _ | .ldVxNn _ _ | .addVxNn _ _ | .ldVxVy _ _
  | .orVxVy _ _ | .andVxVy _ _ | .xorVxVy _ _ | .addVxVy _ _ | .subVxVy _ _ | .shrVxVy _ _ | .subnVxVy _ _
  | .shlVxVy _ _ | .sneVxVy _ _ | .ldINnn _ | .jpV0Nnn _ | .rndVxNn _ _ | .skpVx _ | .sknpVx _ | .ldVxDt _
  | .ldVxK _ | .ldDtVx _ | .ldStVx _ | .addIVx _ | .ldFVx _ => none

/-- The instruction uses an answer of a collaborator (40_fetch_decode_execute.md R91). -/
def usesAnswer : Instr → Bool
  | .rndVxNn _ _ | .drwVxVyN _ _ _ | .skpVx _ | .sknpVx _ | .ldVxK _ => true
  | .cls | .ret | .jpNnn _ | .callNnn _ | .seVxNn _ _ | .sneVxNn _ _ | .seVxVy _ _ | .ldVxNn _ _ | .addVxNn _ _
  | .ldVxVy _ _ | .orVxVy _ _ | .andVxVy _ _ | .xorVxVy _ _ | .addVxVy _ _ | .subVxVy _ _ | .shrVxVy _ _
  | .subnVxVy _ _ | .shlVxVy _ _ | .sneVxVy _ _ | .ldINnn _ | .jpV0Nnn _ | .ldVxDt _ | .ldDtVx _ | .ldStVx _
  | .addIVx _ | .ldFVx _ | .ldBVx _ | .ldMiVx _ | .ldVxMi _ => false

/-- The instruction sets VF as a flag (10_state.md R22). -/
def setsVF : Instr → Bool
  | .addVxVy _ _ | .subVxVy _ _ | .shrVxVy _ _ | .subnVxVy _ _ | .shlVxVy _ _ | .drwVxVyN _ _ _ => true
  | .cls | .ret | .jpNnn _ | .callNnn _ | .seVxNn _ _ | .sneVxNn _ _ | .seVxVy _ _ | .ldVxNn _ _ | .addVxNn _ _
  | .ldVxVy _ _ | .orVxVy _ _ | .andVxVy _ _ | .xorVxVy _ _ | .sneVxVy _ _ | .ldINnn _ | .jpV0Nnn _ | .rndVxNn _ _
  | .skpVx _ | .sknpVx _ | .ldVxDt _ | .ldVxK _ | .ldDtVx _ | .ldStVx _ | .addIVx _ | .ldFVx _ | .ldBVx _
  | .ldMiVx _ | .ldVxMi _ => false

end Sys2Proof.Machine

open Sys2Proof Sys2Proof.Machine

/-! ### Encoding -/

/-- Decoding the bytes of any instruction, whatever follows them, gives the instruction and what follows
(30_encoding.md section 1 to 3). -/
def Obligations.DecodeOfEncodeGivesInstr : Prop :=
  ∀ (i : Instr) (rest : List Byte), decodeBytes (encodeBytes i ++ rest) = .ok (i, rest)

/-- Every word that decodes is the encoding of what it decodes to: no bit is dropped, the ignored `y` of SHR and SHL
included (30_encoding.md section 2 and R81). -/
def Obligations.EncodeOfDecodeGivesWord : Prop := ∀ (w : Word) (i : Instr), decode w = .ok i → encode i = w

/-- The decoder and the opcode table agree: what decodes is accepted by the row of its own mnemonic, and what is rejected
is accepted by no row (spec/opcode_table.json; 30_encoding.md section 4). -/
def Obligations.DecoderAgreesWithOpcodeTable : Prop :=
  ∀ w : Word,
    match decode w with
    | .ok i => ∃ row ∈ opcodeTable, row.mnemonic = i.mnemonic ∧ row.accepts w = true
    | .error _ => ∀ row ∈ opcodeTable, row.accepts w = false

/-- 30_encoding.md R77, R78, R79: in families 0x8, 0xE and 0xF the sub-opcode selects the instruction and every other
sub-opcode is illegal. -/
def Obligations.SubOpcodesSelectInstr : Prop :=
  (∀ x y n : Nibble,
    (decode (0x8#4 ++ x ++ y ++ n)).toOption =
      if n = 0x0 then some (.ldVxVy x y) else if n = 0x1 then some (.orVxVy x y)
      else if n = 0x2 then some (.andVxVy x y) else if n = 0x3 then some (.xorVxVy x y)
      else if n = 0x4 then some (.addVxVy x y) else if n = 0x5 then some (.subVxVy x y)
      else if n = 0x6 then some (.shrVxVy x y) else if n = 0x7 then some (.subnVxVy x y)
      else if n = 0xE then some (.shlVxVy x y) else none) ∧
  (∀ (x : Nibble) (nn : Byte),
    (decode (0xE#4 ++ x ++ nn)).toOption =
      if nn = 0x9E then some (.skpVx x) else if nn = 0xA1 then some (.sknpVx x) else none) ∧
  (∀ (x : Nibble) (nn : Byte),
    (decode (0xF#4 ++ x ++ nn)).toOption =
      if nn = 0x07 then some (.ldVxDt x) else if nn = 0x0A then some (.ldVxK x)
      else if nn = 0x15 then some (.ldDtVx x) else if nn = 0x18 then some (.ldStVx x)
      else if nn = 0x1E then some (.addIVx x) else if nn = 0x29 then some (.ldFVx x)
      else if nn = 0x33 then some (.ldBVx x) else if nn = 0x55 then some (.ldMiVx x)
      else if nn = 0x65 then some (.ldVxMi x) else none)

/-- In family 0x0 only 00E0 and 00EE are instructions, and in 0x5 and 0x9 only n = 0 (30_encoding.md section 3; the exact
set is decision D10). -/
def Obligations.FamiliesZeroFiveNineSelectInstr : Prop :=
  (∀ nnn : Addr12,
    (decode (0x0#4 ++ nnn)).toOption =
      if nnn = 0x0E0 then some .cls else if nnn = 0x0EE then some .ret else none) ∧
  (∀ x y n : Nibble, (decode (0x5#4 ++ x ++ y ++ n)).toOption = if n = 0x0 then some (.seVxVy x y) else none) ∧
  (∀ x y n : Nibble, (decode (0x9#4 ++ x ++ y ++ n)).toOption = if n = 0x0 then some (.sneVxVy x y) else none)

/-- Words of the worked vectors decode to the instructions they stand for (95_test_vectors.md Part 2): a sanity check. -/
def Obligations.SpecWordsDecode : Prop :=
  decode 0x00E0 = .ok .cls ∧ decode 0x6A42 = .ok (.ldVxNn 0xA 0x42) ∧ decode 0x8AB5 = .ok (.subVxVy 0xA 0xB) ∧
  decode 0x1234 = .ok (.jpNnn 0x234) ∧ decode 0xD015 = .ok (.drwVxVyN 0x0 0x1 0x5) ∧
  decode 0xE5A1 = .ok (.sknpVx 0x5) ∧ decode 0xF265 = .ok (.ldVxMi 0x2)

/-! ### The step, faults and the driver's operations -/

/-- When the core is running, a STEP is the driver's next operation, and the two bytes at PC are in memory and decode,
big-endian, to `i`, the step is exec of `i` at that state, after which the STEP comes off the driver's list and is
counted (40_fetch_decode_execute.md section 3; the list is the model's, log 3, log 4). -/
def Obligations.StepRunsDecodedInstr : Prop :=
  ∀ (s : State) (i : Instr),
    s.runState = .running → StepIsNext s → s.pc.toNat + 1 < 4096 →
    decode (s.readByte s.pc.toNat ++ s.readByte (s.pc.toNat + 1)) = .ok i →
    step s =
      match exec i s with
      | .next t => .next { t with pending := t.pending.tail, draws := t.draws + 1 }
      | .fault f => .fault f
      | .refused r => .refused r

/-- A STEP with PC above 4094 halts the core with a FETCH record, whose address is PC when PC lies outside memory and
PC + 1 otherwise (40_fetch_decode_execute.md R96 and 60_exceptions.md R201; record and halt: decisions D9, D22; the
driver's list: log 3). -/
def Obligations.FetchOutOfBoundsHalts : Prop :=
  ∀ s : State, s.runState = .running → StepIsNext s → 4096 ≤ s.pc.toNat + 1 →
    ∃ t, step s = .next { t with pending := s.pending.tail, draws := s.draws + 1 } ∧
      HaltsWith .fetch none (some (if 4096 ≤ s.pc.toNat then s.pc.toNat else s.pc.toNat + 1)) s t

/-- A STEP at a word that is no instruction halts the core with a DecodeFault record (60_exceptions.md section 1; record
and halt: decisions D9, D22; the driver's list: log 3). -/
def Obligations.IllegalWordHalts : Prop :=
  ∀ (s : State) (w : Word), s.runState = .running → StepIsNext s → s.pc.toNat + 1 < 4096 →
    w = s.readByte s.pc.toNat ++ s.readByte (s.pc.toNat + 1) → legalWord w = false →
    ∃ t, step s = .next { t with pending := s.pending.tail, draws := s.draws + 1 } ∧
      HaltsWith .decode (some w) none s t

/-- A STEP in HALTED returns the recorded fault again and changes nothing (40_fetch_decode_execute.md section 3, decision
D9); that it comes off the driver's list and is counted is the model's (log 16). -/
def Obligations.HaltedStepRepeatsFault : Prop :=
  ∀ (s : State) (r : FaultRecord), s.runState = .halted → s.fault = some r → StepIsNext s →
    step s = .next { s with status := some (.fault r), pending := s.pending.tail, draws := s.draws + 1 }

/-- Faults are precise: when a STEP of a running core leaves it halted, the state is the one before but for the run state,
the record and the status, and the record names the instruction at PC (40_fetch_decode_execute.md section 3, decision
D8; the driver's list: log 3). -/
def Obligations.FaultsArePrecise : Prop :=
  ∀ s t : State, s.runState = .running → StepIsNext s → step s = .next t → t.runState = .halted →
    ∃ r : FaultRecord, r.pc = s.pc ∧
      t = { s with runState := .halted, fault := some r, status := some (.fault r),
                   pending := s.pending.tail, draws := s.draws + 1 }

/-- 60_exceptions.md section 3: the only way out of HALTED is RESET, which does lead out; no instruction runs in HALTED (a STEP
changes nothing but the status it returns and the driver's list, log 3), and no fault can occur while one is pending. -/
def Obligations.OnlyResetLeavesHalted : Prop :=
  ∀ s t : State, s.runState = .halted → step s = .next t →
    (t.runState = .running ↔ s.nextOp = .reset) ∧ (s.nextOp ≠ .reset → t.fault = s.fault) ∧
    (StepIsNext s → t = { s with status := t.status, pending := s.pending.tail, draws := s.draws + 1 })

/-- TICK decrements both timers, floored at 0, in HALTED as in RUNNING, and changes nothing else
(44_timers_external.md section 3, decision D9; the driver's list: log 3). -/
def Obligations.TickDecrementsTimers : Prop :=
  ∀ s : State, s.nextOp = .tick →
    ∃ t, step s = .next t ∧ t.dt.toNat = s.dt.toNat - 1 ∧ t.st.toNat = s.st.toNat - 1 ∧
      t = { s with dt := t.dt, st := t.st, pending := s.pending.tail, draws := s.draws + 1 }

/-- 44_timers_external.md R189: the buzzer is on exactly when ST is not 0, and it changes only by a STEP that runs Fx18, by a TICK that
takes ST from 1 to 0, and by RESET. -/
def Obligations.BuzzerFollowsSoundTimer : Prop :=
  (∀ s : State, s.buzzer = true ↔ s.st.toNat ≠ 0) ∧
  (∀ s t : State, step s = .next t → t.buzzer ≠ s.buzzer →
    (StepIsNext s ∧ ∃ x, s.instrAtPc = some (.ldStVx x)) ∨ (s.nextOp = .tick ∧ s.st.toNat = 1 ∧ t.st.toNat = 0) ∨
      s.nextOp = .reset)

/-- LOAD copies the bytes to ORIGIN on, drops those beyond memory, and changes nothing else, in either run state
(44_timers_external.md section 4, decision D29; the driver's list: log 3). -/
def Obligations.LoadFillsProgramRegion : Prop :=
  ∀ (s : State) (bytes : List Byte), s.nextOp = .load bytes →
    ∃ t, step s = .next t ∧
      (∀ k b, bytes[k]? = some b → 0x200 + k < 4096 → t.readByte (0x200 + k) = b) ∧
      (∀ a, (a < 0x200 ∨ 0x200 + bytes.length ≤ a ∨ 4096 ≤ a) → t.readByte a = s.readByte a) ∧
      t = { s with mem := t.mem, pending := s.pending.tail, draws := s.draws + 1 }

/-- RESET from any state, whatever was loaded and whether halted or not: every piece of the core's state is at its reset
value (70_reset_and_hazards.md section 1, decisions D24, D30). What stays of the model's own fields is log 13. -/
def Obligations.ResetRestoresPowerOn : Prop :=
  ∀ s : State, s.nextOp = .reset →
    ∃ t, step s = .next t ∧ (∀ x, t.readV x = 0) ∧ t.i = 0 ∧ t.pc = 0x200 ∧ t.sp.val = 0 ∧
      (∀ k : Fin 16, t.stack[k] = 0) ∧ t.dt = 0 ∧ t.st = 0 ∧ t.runState = .running ∧ t.fault = none ∧
      (∀ a, t.readByte a =
        if h : s.cfg.fontBase ≤ a ∧ a < s.cfg.fontBase + 80 then s.cfg.fontData[a - s.cfg.fontBase]'(by omega) else 0) ∧
      t.cfg = s.cfg ∧ t.requests = s.requests ∧ t.pending = s.pending.tail ∧ t.draws = s.draws + 1

/-- The machine right after reset with the default parameters: PC at 0x200, an empty stack, registers and timers zero,
glyphs 0 and F of the font at 0x050 and 0x09B, the program region zero (10_state.md section 9; the font's place and
bytes are decisions D14, D15). -/
def Obligations.ResetStateHasSpecValues : Prop :=
  State.reset.pc = 0x200 ∧ State.reset.sp = 0 ∧ State.reset.i = 0 ∧ (∀ x, State.reset.readV x = 0) ∧
  State.reset.dt = 0 ∧ State.reset.st = 0 ∧ State.reset.buzzer = false ∧ State.reset.runState = .running ∧
  State.reset.fault = none ∧
  (List.range 5).map (fun k => State.reset.readByte (0x050 + k)) = [0xF0, 0x90, 0x90, 0x90, 0xF0] ∧
  (List.range 5).map (fun k => State.reset.readByte (0x09B + k)) = [0xF0, 0x80, 0xF0, 0x80, 0x80] ∧
  (∀ a, 0x0A0 ≤ a → State.reset.readByte a = 0) ∧ (∀ a, a < 0x050 → State.reset.readByte a = 0)

/-! ### Invariants -/

/-- The invariant holds at reset (10_state.md section 9). -/
def Obligations.ResetSatisfiesInv : Prop := Inv State.reset

/-- Every operation keeps the invariant: the font in the reserved region, memory canonical, a fault record exactly in
HALTED and about the PC, PC at most 0x10FE and every return address at most 0x1000 (10_state.md section 4, 6 and 8; the
canonical form is the model's, log 8). -/
def Obligations.StepKeepsInv : Prop := ∀ s t : State, Inv s → step s = .next t → Inv t

/-- From every state that meets the invariant each operation of the driver, on any program, takes a next state: the spec's
faults halt the core and stop nothing (40_fetch_decode_execute.md section 2; log 2, log 9). -/
def Obligations.InvStepAlwaysGoesOn : Prop := ∀ s : State, Inv s → ∃ t, step s = .next t

/-- Two canonical memories that read alike at every address are the same list (the model's form of 20_memory.md section 1,
log 8). -/
def Obligations.CanonicalMemoriesReadingAlikeAreEqual : Prop :=
  ∀ (c : Config) (m m' : Memory), Memory.wf c m → Memory.wf c m' →
    (∀ a, Memory.read c m a = Memory.read c m' a) → m = m'

/-! ### Whole-machine rules -/

/-- The parameters never change, and executing an instruction touches neither the driver's list nor the count of operations
(00_scope.md section 3; the fields are the model's, log 1, log 3, log 4). -/
def Obligations.ParametersNeverChange : Prop :=
  (∀ (i : Instr) (s t : State), exec i s = .next t → t.cfg = s.cfg ∧ t.pending = s.pending ∧ t.draws = s.draws) ∧
  (∀ s t : State, step s = .next t → t.cfg = s.cfg)

/-- Every instruction takes a next state from every state, and its status says how: OK and still as before running or
halted; AWAITING_INPUT, of Fx0A alone; or FAULT with the record the core now holds (40_fetch_decode_execute.md section
1, decision D2). -/
def Obligations.ExecAnswersNextWithStatus : Prop :=
  ∀ (i : Instr) (s : State), ∃ t, exec i s = .next t ∧
    ((t.status = some .ok ∧ t.runState = s.runState ∧ t.fault = s.fault) ∨
     (t.status = some .awaitingInput ∧ (∃ x, i = .ldVxK x) ∧ t = { s with status := t.status }) ∨
     (∃ r, t.status = some (.fault r) ∧ t.fault = some r ∧ t.runState = .halted))

/-- Only the instructions that 10_state.md R21 names write a V register, and only the ones it names (a derived list of
the spec, section 2). -/
def Obligations.OnlyNamedInstrsWriteRegs : Prop :=
  ∀ (i : Instr) (s t : State) (r : Nibble), exec i s = .next t → ¬ writesReg i r → t.readV r = s.readV r

/-- Only the instructions that the spec names write I, SP, the stack, a timer or memory or make a display request: every
other part of the state is as before (10_state.md section 3 to 5; 20_memory.md section 1). -/
def Obligations.OnlyNamedInstrsWriteParts : Prop :=
  ∀ (i : Instr) (s t : State) (p : Part), exec i s = .next t → ¬ writesPart i p → Part.Same s t p

/-- An instruction halts a running core only by the fault kind the spec gives it (60_exceptions.md section 1, a derived
list). -/
def Obligations.OnlyNamedInstrsFault : Prop :=
  ∀ (i : Instr) (s t : State), s.runState = .running → exec i s = .next t → t.runState = .halted →
    ∃ r : FaultRecord, t.fault = some r ∧ raisesKind i = some r.kind

/-- Only Cxnn, Dxyn, Ex9E, ExA1 and Fx0A depend on the collaborators' answers: any other instruction does the same
whatever the driver's list and the count of operations, from which the answers come, hold (40_fetch_decode_execute.md section
1, decision D2). -/
def Obligations.OnlyNamedInstrsUseAnswers : Prop :=
  ∀ (i : Instr) (s : State) (ops : List DriverOp) (n : Nat), usesAnswer i = false →
    exec i { s with pending := ops, draws := n } = mapNext (fun t => { t with pending := ops, draws := n }) (exec i s)

/-- Every VF-setting instruction that completes leaves VF 0 or 1, whichever registers it names; an instruction that sets
no flag changes VF only as a register it names as destination (10_state.md section 2, decision D12). -/
def Obligations.VFIsAFlagAfterVFSetters : Prop :=
  ∀ (i : Instr) (s t : State), s.runState = .running → exec i s = .next t → t.runState = .running →
    (setsVF i = true → t.readV 0xF = 0 ∨ t.readV 0xF = 1) ∧
    (setsVF i = false → ¬ writesReg i 0xF → t.readV 0xF = s.readV 0xF)

/-! ### Arithmetic and logic (41_arithmetic_logic.md) -/

/-- 41_arithmetic_logic.md R113. -/
def Obligations.LoadImmediate : Prop :=
  ∀ (x : Nibble) (nn : Byte) (s : State),
    decode (0x6#4 ++ x ++ nn) = .ok (.ldVxNn x nn) ∧
    ∃ t, exec (.ldVxNn x nn) s = .next t ∧ t.pc = s.pc + 2 ∧ t.readV x = nn ∧
      KeepsRegsBut x s t ∧ KeepsAllBut [.v] s t

/-- 7xnn adds modulo 256 and sets no flag; with x = F it adds to VF as a register (41_arithmetic_logic.md section 2,
decision D12). -/
def Obligations.AddImmediate : Prop :=
  ∀ (x : Nibble) (nn : Byte) (s : State),
    decode (0x7#4 ++ x ++ nn) = .ok (.addVxNn x nn) ∧
    ∃ t, exec (.addVxNn x nn) s = .next t ∧ t.pc = s.pc + 2 ∧
      (t.readV x).toNat = ((s.readV x).toNat + nn.toNat) % 256 ∧ KeepsRegsBut x s t ∧ KeepsAllBut [.v] s t

/-- 41_arithmetic_logic.md R115 to R118: copy, OR, AND and XOR, bit for bit, set no flag. -/
def Obligations.CopyAndLogic : Prop :=
  ∀ (x y : Nibble) (s : State),
    decode (0x8#4 ++ x ++ y ++ 0x0#4) = .ok (.ldVxVy x y) ∧ decode (0x8#4 ++ x ++ y ++ 0x1#4) = .ok (.orVxVy x y) ∧
    decode (0x8#4 ++ x ++ y ++ 0x2#4) = .ok (.andVxVy x y) ∧ decode (0x8#4 ++ x ++ y ++ 0x3#4) = .ok (.xorVxVy x y) ∧
    (∃ t, exec (.ldVxVy x y) s = .next t ∧ t.pc = s.pc + 2 ∧ t.readV x = s.readV y ∧
      KeepsRegsBut x s t ∧ KeepsAllBut [.v] s t) ∧
    (∃ t, exec (.orVxVy x y) s = .next t ∧ t.pc = s.pc + 2 ∧
      (∀ k, (t.readV x).getLsbD k = ((s.readV x).getLsbD k || (s.readV y).getLsbD k)) ∧
      KeepsRegsBut x s t ∧ KeepsAllBut [.v] s t) ∧
    (∃ t, exec (.andVxVy x y) s = .next t ∧ t.pc = s.pc + 2 ∧
      (∀ k, (t.readV x).getLsbD k = ((s.readV x).getLsbD k && (s.readV y).getLsbD k)) ∧
      KeepsRegsBut x s t ∧ KeepsAllBut [.v] s t) ∧
    (∃ t, exec (.xorVxVy x y) s = .next t ∧ t.pc = s.pc + 2 ∧
      (∀ k, (t.readV x).getLsbD k = ((s.readV x).getLsbD k != (s.readV y).getLsbD k)) ∧
      KeepsRegsBut x s t ∧ KeepsAllBut [.v] s t)

/-- 41_arithmetic_logic.md R119: VF is the carry of the old operands, written last. -/
def Obligations.AddRegisters : Prop :=
  ∀ (x y : Nibble) (s : State),
    decode (0x8#4 ++ x ++ y ++ 0x4#4) = .ok (.addVxVy x y) ∧
    ∃ t, exec (.addVxVy x y) s = .next t ∧ t.pc = s.pc + 2 ∧
      (x ≠ 0xF → (t.readV x).toNat = ((s.readV x).toNat + (s.readV y).toNat) % 256) ∧
      t.readV 0xF = (if 0xFF < (s.readV x).toNat + (s.readV y).toNat then 1 else 0) ∧
      KeepsRegsButVF x s t ∧ KeepsAllBut [.v] s t

/-- 41_arithmetic_logic.md R120: VF is not-borrow of the old operands, written last. -/
def Obligations.SubtractRegisters : Prop :=
  ∀ (x y : Nibble) (s : State),
    decode (0x8#4 ++ x ++ y ++ 0x5#4) = .ok (.subVxVy x y) ∧
    ∃ t, exec (.subVxVy x y) s = .next t ∧ t.pc = s.pc + 2 ∧
      (x ≠ 0xF → (t.readV x).toNat = ((s.readV x).toNat + 256 - (s.readV y).toNat) % 256) ∧
      t.readV 0xF = (if (s.readV y).toNat ≤ (s.readV x).toNat then 1 else 0) ∧
      KeepsRegsButVF x s t ∧ KeepsAllBut [.v] s t

/-- 41_arithmetic_logic.md R122: the reverse subtraction, VF not-borrow, written last. -/
def Obligations.SubtractReversed : Prop :=
  ∀ (x y : Nibble) (s : State),
    decode (0x8#4 ++ x ++ y ++ 0x7#4) = .ok (.subnVxVy x y) ∧
    ∃ t, exec (.subnVxVy x y) s = .next t ∧ t.pc = s.pc + 2 ∧
      (x ≠ 0xF → (t.readV x).toNat = ((s.readV y).toNat + 256 - (s.readV x).toNat) % 256) ∧
      t.readV 0xF = (if (s.readV x).toNat ≤ (s.readV y).toNat then 1 else 0) ∧
      KeepsRegsButVF x s t ∧ KeepsAllBut [.v] s t

/-- 8xy6 halves V[x] and 8xyE doubles it modulo 256; VF is the bit shifted out, written last; `y` is any and ignored
(41_arithmetic_logic.md section 3, decision D11). -/
def Obligations.ShiftsMoveVxByOne : Prop :=
  ∀ (x y : Nibble) (s : State),
    decode (0x8#4 ++ x ++ y ++ 0x6#4) = .ok (.shrVxVy x y) ∧ decode (0x8#4 ++ x ++ y ++ 0xE#4) = .ok (.shlVxVy x y) ∧
    (∃ t, exec (.shrVxVy x y) s = .next t ∧ t.pc = s.pc + 2 ∧
      (x ≠ 0xF → (t.readV x).toNat = (s.readV x).toNat / 2) ∧ (t.readV 0xF).toNat = (s.readV x).toNat % 2 ∧
      KeepsRegsButVF x s t ∧ KeepsAllBut [.v] s t) ∧
    (∃ t, exec (.shlVxVy x y) s = .next t ∧ t.pc = s.pc + 2 ∧
      (x ≠ 0xF → (t.readV x).toNat = 2 * (s.readV x).toNat % 256) ∧ (t.readV 0xF).toNat = (s.readV x).toNat / 128 ∧
      KeepsRegsButVF x s t ∧ KeepsAllBut [.v] s t)

/-- Cxnn: the answer of the random source, any byte, under the mask (41_arithmetic_logic.md section 4, decision D17). -/
def Obligations.RandomUnderMask : Prop :=
  ∀ (x : Nibble) (nn : Byte) (s : State),
    decode (0xC#4 ++ x ++ nn) = .ok (.rndVxNn x nn) ∧
    ∃ t, exec (.rndVxNn x nn) s = .next t ∧ t.pc = s.pc + 2 ∧
      (∀ k, (t.readV x).getLsbD k = (s.answers.random.getLsbD k && nn.getLsbD k)) ∧
      KeepsRegsBut x s t ∧ KeepsAllBut [.v] s t

/-! ### Control flow (42_control_flow.md) -/

/-- 42_control_flow.md R142; a target of 0xFFF faults at the next fetch. -/
def Obligations.Jump : Prop :=
  ∀ (nnn : Addr12) (s : State),
    decode (0x1#4 ++ nnn) = .ok (.jpNnn nnn) ∧
    ∃ t, exec (.jpNnn nnn) s = .next t ∧ t.pc.toNat = nnn.toNat ∧ KeepsAllBut [] s t ∧
      (nnn = 0xFFF → ∃ r, fetch t = .error r)

/-- Bnnn: the sum of the base and V0, not truncated, at most 0x10FE (42_control_flow.md section 2, decision D5). -/
def Obligations.JumpWithOffset : Prop :=
  ∀ (nnn : Addr12) (s : State),
    decode (0xB#4 ++ nnn) = .ok (.jpV0Nnn nnn) ∧
    ∃ t, exec (.jpV0Nnn nnn) s = .next t ∧ t.pc.toNat = nnn.toNat + (s.readV 0x0).toNat ∧ t.pc.toNat ≤ 0x10FE ∧
      KeepsAllBut [] s t ∧ (0xFFF ≤ t.pc.toNat → ∃ r, fetch t = .error r)

/-- 2nnn pushes the address after it and jumps when fewer than 16 return addresses are stacked; with 16 it halts the core
with STACK_OVERFLOW and writes nothing (42_control_flow.md section 3; record and halt: decisions D8, D9, D22). -/
def Obligations.CallPushesOrOverflows : Prop :=
  ∀ (nnn : Addr12) (s : State),
    decode (0x2#4 ++ nnn) = .ok (.callNnn nnn) ∧
    (s.sp.val < 16 → ∃ t, exec (.callNnn nnn) s = .next t ∧ t.pc.toNat = nnn.toNat ∧ t.sp.val = s.sp.val + 1 ∧
      (∀ k : Fin 16, t.stack[k] = if k.val = s.sp.val then s.pc + 2 else s.stack[k]) ∧
      KeepsAllBut [.sp, .stack] s t) ∧
    (s.sp.val = 16 → ∃ t, exec (.callNnn nnn) s = .next t ∧
      HaltsWith .stackOverflow (some (0x2#4 ++ nnn)) none s t)

/-- 00EE pops the address on top, whose slot keeps its value; with an empty stack it halts the core with STACK_UNDERFLOW
and writes nothing (42_control_flow.md section 3; record and halt: decisions D8, D9, D22). -/
def Obligations.ReturnPopsOrUnderflows : Prop :=
  ∀ s : State,
    decode 0x00EE = .ok .ret ∧
    (∀ h : 0 < s.sp.val, ∃ t, exec .ret s = .next t ∧ t.pc = s.stack[s.sp.val - 1]'(by omega) ∧
      t.sp.val = s.sp.val - 1 ∧ KeepsAllBut [.sp] s t) ∧
    (s.sp.val = 0 → ∃ t, exec .ret s = .next t ∧ HaltsWith .stackUnderflow (some 0x00EE) none s t)

/-- A call and then a return restore PC to the instruction after the call and SP to what it was
(42_control_flow.md section 3, the source's round-trip property). -/
def Obligations.CallThenReturnRestores : Prop :=
  ∀ (nnn : Addr12) (s : State), s.sp.val < 16 →
    ∃ t u, exec (.callNnn nnn) s = .next t ∧ exec .ret t = .next u ∧ u.pc = s.pc + 2 ∧ u.sp = s.sp ∧
      KeepsAllBut [.stack] s u

/-- 42_control_flow.md R146 and R147: PC advances by 4 when the condition holds, by 2 otherwise. -/
def Obligations.SkipsOnImmediate : Prop :=
  ∀ (x : Nibble) (nn : Byte) (s : State),
    decode (0x3#4 ++ x ++ nn) = .ok (.seVxNn x nn) ∧ decode (0x4#4 ++ x ++ nn) = .ok (.sneVxNn x nn) ∧
    (∃ t, exec (.seVxNn x nn) s = .next t ∧ t.pc = (if s.readV x = nn then s.pc + 4 else s.pc + 2) ∧
      KeepsAllBut [] s t) ∧
    (∃ t, exec (.sneVxNn x nn) s = .next t ∧ t.pc = (if s.readV x ≠ nn then s.pc + 4 else s.pc + 2) ∧
      KeepsAllBut [] s t)

/-- 5xy0 skips when the registers are equal, 9xy0 when they are not, and a word of either family with n not 0 is rejected
(42_control_flow.md section 4; 90_conflicts.md C1; the rejection is decision D10). -/
def Obligations.SkipsOnRegisters : Prop :=
  ∀ (x y : Nibble) (s : State),
    decode (0x5#4 ++ x ++ y ++ 0x0#4) = .ok (.seVxVy x y) ∧ decode (0x9#4 ++ x ++ y ++ 0x0#4) = .ok (.sneVxVy x y) ∧
    (∃ t, exec (.seVxVy x y) s = .next t ∧ t.pc = (if s.readV x = s.readV y then s.pc + 4 else s.pc + 2) ∧
      KeepsAllBut [] s t) ∧
    (∃ t, exec (.sneVxVy x y) s = .next t ∧ t.pc = (if s.readV x ≠ s.readV y then s.pc + 4 else s.pc + 2) ∧
      KeepsAllBut [] s t) ∧
    (∀ n : Nibble, n ≠ 0x0 → (decode (0x5#4 ++ x ++ y ++ n)).toOption = none ∧
      (decode (0x9#4 ++ x ++ y ++ n)).toOption = none)

/-- A core at `1nnn` with nnn = PC stays there: every STEP returns OK and changes no state of the core (70_reset_and_hazards.md
section 5, decision D33; the driver's list: log 3). -/
def Obligations.SelfLoopChangesNothing : Prop :=
  ∀ s : State, inSelfLoop s = true → StepIsNext s →
    step s = .next { s with status := some .ok, pending := s.pending.tail, draws := s.draws + 1 }

/-! ### Index, memory and sprite (43_memory_index_sprite.md) -/

/-- 43_memory_index_sprite.md R161. -/
def Obligations.LoadIndex : Prop :=
  ∀ (nnn : Addr12) (s : State),
    decode (0xA#4 ++ nnn) = .ok (.ldINnn nnn) ∧
    ∃ t, exec (.ldINnn nnn) s = .next t ∧ t.pc = s.pc + 2 ∧ t.i.toNat = nnn.toNat ∧ KeepsAllBut [.i] s t

/-- Fx1E: a 16-bit sum, no flag, no fault (43_memory_index_sprite.md section 2, decision D6). -/
def Obligations.AddToIndex : Prop :=
  ∀ (x : Nibble) (s : State),
    decode (0xF#4 ++ x ++ 0x1E#8) = .ok (.addIVx x) ∧
    ∃ t, exec (.addIVx x) s = .next t ∧ t.pc = s.pc + 2 ∧
      t.i.toNat = (s.i.toNat + (s.readV x).toNat) % 65536 ∧ KeepsAllBut [.i] s t

/-- Fx29, for every font base that meets the constraint of the parameters: the low nibble selects the glyph, and I lies
in the reserved region (43_memory_index_sprite.md section 2, decision D14; the parameter is log 1). -/
def Obligations.IndexToGlyph : Prop :=
  ∀ (x : Nibble) (s : State), s.cfg.wellFormed = true →
    decode (0xF#4 ++ x ++ 0x29#8) = .ok (.ldFVx x) ∧
    ∃ t, exec (.ldFVx x) s = .next t ∧ t.pc = s.pc + 2 ∧
      t.i.toNat = s.cfg.fontBase + 5 * ((s.readV x).toNat % 16) ∧ t.i.toNat < 0x200 ∧ KeepsAllBut [.i] s t

/-- Fx33 stores the three decimal digits of V[x] at I, I+1, I+2 when all three addresses may be written; otherwise it
halts the core with MEM_WRITE at the lowest failing address and stores nothing (43_memory_index_sprite.md section 3;
PROTECT_RESERVED is decision D16, record and halt D8, D9, D22, I unchanged D13). -/
def Obligations.StoreDecimalDigits : Prop :=
  ∀ (x : Nibble) (s : State),
    decode (0xF#4 ++ x ++ 0x33#8) = .ok (.ldBVx x) ∧
    (s.dataAddr 2 < 4096 → ¬ (s.cfg.protectReserved = true ∧ s.dataAddr 0 < 0x200) →
      ∃ t, exec (.ldBVx x) s = .next t ∧ t.pc = s.pc + 2 ∧
        (t.readByte (s.dataAddr 0)).toNat = (s.readV x).toNat / 100 ∧
        (t.readByte (s.dataAddr 1)).toNat = (s.readV x).toNat / 10 % 10 ∧
        (t.readByte (s.dataAddr 2)).toNat = (s.readV x).toNat % 10 ∧
        (∀ a, (∀ k, k < 3 → a ≠ s.dataAddr k) → t.readByte a = s.readByte a) ∧ KeepsAllBut [.mem] s t) ∧
    (s.cfg.protectReserved = true → s.dataAddr 0 < 0x200 →
      ∃ t, exec (.ldBVx x) s = .next t ∧
        HaltsWith .memWrite (some (0xF#4 ++ x ++ 0x33#8)) (some (s.dataAddr 0)) s t) ∧
    (4096 ≤ s.dataAddr 2 → ∃ t, exec (.ldBVx x) s = .next t ∧
        HaltsWith .memWrite (some (0xF#4 ++ x ++ 0x33#8)) (some (max 4096 (s.dataAddr 0))) s t)

/-- Fx55 stores V[0] to V[x] at I to I+x when all these addresses may be written; otherwise it halts the core with
MEM_WRITE at the lowest failing address and stores nothing; I is unchanged (43_memory_index_sprite.md section 3,
decision D13; PROTECT_RESERVED D16; record and halt D8, D9, D22). -/
def Obligations.StoreRegisters : Prop :=
  ∀ (x : Nibble) (s : State),
    decode (0xF#4 ++ x ++ 0x55#8) = .ok (.ldMiVx x) ∧
    (s.dataAddr x.toNat < 4096 → ¬ (s.cfg.protectReserved = true ∧ s.dataAddr 0 < 0x200) →
      ∃ t, exec (.ldMiVx x) s = .next t ∧ t.pc = s.pc + 2 ∧
        (∀ r : Nibble, r.toNat ≤ x.toNat → t.readByte (s.dataAddr r.toNat) = s.readV r) ∧
        (∀ a, (∀ k, k ≤ x.toNat → a ≠ s.dataAddr k) → t.readByte a = s.readByte a) ∧ KeepsAllBut [.mem] s t) ∧
    (s.cfg.protectReserved = true → s.dataAddr 0 < 0x200 →
      ∃ t, exec (.ldMiVx x) s = .next t ∧
        HaltsWith .memWrite (some (0xF#4 ++ x ++ 0x55#8)) (some (s.dataAddr 0)) s t) ∧
    (4096 ≤ s.dataAddr x.toNat → ∃ t, exec (.ldMiVx x) s = .next t ∧
        HaltsWith .memWrite (some (0xF#4 ++ x ++ 0x55#8)) (some (max 4096 (s.dataAddr 0))) s t)

/-- Fx65 loads V[0] to V[x] from I to I+x when all these addresses lie in memory, below ORIGIN too; otherwise it halts the
core with MEM_READ at the lowest failing address and loads nothing; I is unchanged (43_memory_index_sprite.md section 3,
decision D13; record and halt D8, D9, D22). -/
def Obligations.LoadRegisters : Prop :=
  ∀ (x : Nibble) (s : State),
    decode (0xF#4 ++ x ++ 0x65#8) = .ok (.ldVxMi x) ∧
    (s.dataAddr x.toNat < 4096 →
      ∃ t, exec (.ldVxMi x) s = .next t ∧ t.pc = s.pc + 2 ∧
        (∀ r : Nibble, t.readV r = if r.toNat ≤ x.toNat then s.readByte (s.dataAddr r.toNat) else s.readV r) ∧
        KeepsAllBut [.v] s t) ∧
    (4096 ≤ s.dataAddr x.toNat → ∃ t, exec (.ldVxMi x) s = .next t ∧
        HaltsWith .memRead (some (0xF#4 ++ x ++ 0x65#8)) (some (max 4096 (s.dataAddr 0))) s t)

/-- Dxyn, when its n sprite bytes lie in memory, makes one draw request with the raw coordinates and those bytes and then
sets VF to the collision answer, which is false for an empty sprite; otherwise it halts the core with MEM_READ at the
lowest failing address, with no request (43_memory_index_sprite.md section 4, decision D18; record and halt D8, D9,
D22; the host's duty for an empty sprite is log 5). -/
def Obligations.DrawSprite : Prop :=
  ∀ (x y n : Nibble) (s : State),
    decode (0xD#4 ++ x ++ y ++ n) = .ok (.drwVxVyN x y n) ∧
    ((n.toNat = 0 ∨ s.dataAddr n.toNat ≤ 4096) →
      ∃ t rows, exec (.drwVxVyN x y n) s = .next t ∧ t.pc = s.pc + 2 ∧
        rows.length = n.toNat ∧ (∀ k, k < n.toNat → rows[k]? = some (s.readByte (s.dataAddr k))) ∧
        t.requests = s.requests ++ [.draw (s.readV x) (s.readV y) rows] ∧
        t.readV 0xF = (if n.toNat ≠ 0 ∧ s.answers.collided = true then 1 else 0) ∧
        KeepsRegsBut 0xF s t ∧ KeepsAllBut [.v, .requests] s t) ∧
    (n.toNat ≠ 0 → 4096 < s.dataAddr n.toNat → ∃ t, exec (.drwVxVyN x y n) s = .next t ∧
        HaltsWith .memRead (some (0xD#4 ++ x ++ y ++ n)) (some (max 4096 (s.dataAddr 0))) s t)

/-- A store into the next instruction is fetched as written: after Fx55 with x = 1 and I at the next word, the next fetch
reads V0 and V1 (20_memory.md section 3, decision D26). -/
def Obligations.StoredWordIsFetchedNext : Prop :=
  ∀ s : State, s.i = s.pc + 2 → s.pc.toNat + 3 < 4096 → ¬ (s.cfg.protectReserved = true ∧ s.i.toNat < 0x200) →
    ∃ t, exec (.ldMiVx 0x1) s = .next t ∧ fetch t = .ok (s.readV 0x0 ++ s.readV 0x1)

/-! ### Timers and external events (44_timers_external.md) -/

/-- 00E0 emits one clear request and changes nothing else, VF included (44_timers_external.md section 1, decision D32). -/
def Obligations.ClearDisplay : Prop :=
  ∀ s : State,
    decode 0x00E0 = .ok .cls ∧
    ∃ t, exec .cls s = .next t ∧ t.pc = s.pc + 2 ∧ t.requests = s.requests ++ [.clear] ∧ KeepsAllBut [.requests] s t

/-- Ex9E skips when the key is down and ExA1 when it is not; a key value of 16 or more names no key and is not down
(44_timers_external.md section 1, decision D19; log 5). -/
def Obligations.SkipsOnKey : Prop :=
  ∀ (x : Nibble) (s : State) (down : Bool),
    down = (if (s.readV x).toNat < 16 then s.answers.keysDown.getLsbD (s.readV x).toNat else false) →
    decode (0xE#4 ++ x ++ 0x9E#8) = .ok (.skpVx x) ∧ decode (0xE#4 ++ x ++ 0xA1#8) = .ok (.sknpVx x) ∧
    (∃ t, exec (.skpVx x) s = .next t ∧ t.pc = (if down = true then s.pc + 4 else s.pc + 2) ∧ KeepsAllBut [] s t) ∧
    (∃ t, exec (.sknpVx x) s = .next t ∧ t.pc = (if down = true then s.pc + 2 else s.pc + 4) ∧ KeepsAllBut [] s t)

/-- Fx0A takes a key event into V[x]; with none it returns AWAITING_INPUT, PC on the same word and nothing changed
(44_timers_external.md section 1, decision D20). -/
def Obligations.WaitForKey : Prop :=
  ∀ (x : Nibble) (s : State),
    decode (0xF#4 ++ x ++ 0x0A#8) = .ok (.ldVxK x) ∧
    (∀ k : Nibble, s.answers.keyEvent = some k →
      ∃ t, exec (.ldVxK x) s = .next t ∧ t.pc = s.pc + 2 ∧ (t.readV x).toNat = k.toNat ∧
        KeepsRegsBut x s t ∧ KeepsAllBut [.v] s t) ∧
    (s.answers.keyEvent = none → exec (.ldVxK x) s = .next { s with status := some .awaitingInput })

/-- 44_timers_external.md R184. -/
def Obligations.ReadDelayTimer : Prop :=
  ∀ (x : Nibble) (s : State),
    decode (0xF#4 ++ x ++ 0x07#8) = .ok (.ldVxDt x) ∧
    ∃ t, exec (.ldVxDt x) s = .next t ∧ t.pc = s.pc + 2 ∧ t.readV x = s.dt ∧
      KeepsRegsBut x s t ∧ KeepsAllBut [.v] s t

/-- 44_timers_external.md R185. -/
def Obligations.SetDelayTimer : Prop :=
  ∀ (x : Nibble) (s : State),
    decode (0xF#4 ++ x ++ 0x15#8) = .ok (.ldDtVx x) ∧
    ∃ t, exec (.ldDtVx x) s = .next t ∧ t.pc = s.pc + 2 ∧ t.dt = s.readV x ∧ KeepsAllBut [.dt] s t

/-- Fx18 takes any value, 1 included, and the buzzer is on exactly when it is not 0 (44_timers_external.md section 2,
decision D21). -/
def Obligations.SetSoundTimer : Prop :=
  ∀ (x : Nibble) (s : State),
    decode (0xF#4 ++ x ++ 0x18#8) = .ok (.ldStVx x) ∧
    ∃ t, exec (.ldStVx x) s = .next t ∧ t.pc = s.pc + 2 ∧ t.st = s.readV x ∧
      (t.buzzer = true ↔ (s.readV x).toNat ≠ 0) ∧ KeepsAllBut [.st] s t

/-! ### The interleaving of ticks and steps, and the wait -/

/-- Any number of TICKs may fall between two STEPs, zero included: n of them, whatever the driver does after them, take
both timers down by n, floored at 0, and change nothing else of the core, in either run state (44_timers_external.md
section 3, decisions D9, D21; the driver's list and the count of operations are the model's, log 3). -/
def Obligations.AnyNumberOfTicksFallBetweenSteps : Prop :=
  ∀ (s : State) (n : Nat) (ops : List DriverOp), s.pending = List.replicate n .tick ++ ops →
    ∃ t, stateAfter n s = some t ∧ t.dt.toNat = s.dt.toNat - n ∧ t.st.toNat = s.st.toNat - n ∧
      t = { s with dt := t.dt, st := t.st, pending := ops, draws := s.draws + n }

/-- A core that waits, an Fx0A at PC and no key event delivered, stays there: a STEP returns AWAITING_INPUT and changes no
state of the core; with a key event delivered it does not wait, and a STEP returns OK (70_reset_and_hazards.md section 5,
decision D33; 44_timers_external.md section 1, decision D20; the driver's list: log 3). -/
def Obligations.WaitingStepChangesNothing : Prop :=
  ∀ (s : State) (x : Nibble), s.instrAtPc = some (.ldVxK x) → StepIsNext s →
    (waitingForKey s = true ↔ s.answers.keyEvent = none) ∧
    (waitingForKey s = true →
      step s = .next { s with status := some .awaitingInput, pending := s.pending.tail, draws := s.draws + 1 }) ∧
    (waitingForKey s = false → ∃ t, step s = .next t ∧ t.status = some .ok ∧ t.pc = s.pc + 2)
end

