-- ==== Sys2Proof/Laws/Decode.lean ====
section
/-! SUPPORT. Fields and forms: taking a form apart gives its fields, putting the fields together gives the word. -/

namespace Sys2Proof

theorem wellFormed_all (i : Instr) : i.wellFormed = true := by
  cases i <;> simp [Instr.wellFormed] <;> omega

/-! ### Taking a form apart -/

section
variable (f x y n : Nibble) (nn : Byte) (nnn : Addr12)

theorem toNat_formNnn : (formNnn f nnn).toNat = f.toNat * 4096 + nnn.toNat := by
  have h : (formNnn f nnn).toNat = f.toNat <<< 12 ||| nnn.toNat := BitVec.toNat_append f nnn
  rw [h, Nat.shiftLeft_eq, Nat.mul_comm, ← Nat.two_pow_add_eq_or_of_lt nnn.isLt, Nat.mul_comm]

theorem toNat_formXnn : (formXnn f x nn).toNat = f.toNat * 4096 + x.toNat * 256 + nn.toNat := by
  have h1 := nn.isLt
  have h2 := x.isLt
  simp only [formXnn, BitVec.toNat_append, Nat.shiftLeft_eq, Nat.mul_comm _ (2 ^ _),
    ← Nat.two_pow_add_eq_or_of_lt h1, ← Nat.two_pow_add_eq_or_of_lt h2]
  omega

theorem toNat_formXyn : (formXyn f x y n).toNat = f.toNat * 4096 + x.toNat * 256 + y.toNat * 16 + n.toNat := by
  have h1 := n.isLt
  have h2 := y.isLt
  have h3 := x.isLt
  simp only [formXyn, BitVec.toNat_append, Nat.shiftLeft_eq, Nat.mul_comm _ (2 ^ _),
    ← Nat.two_pow_add_eq_or_of_lt h1, ← Nat.two_pow_add_eq_or_of_lt h2, ← Nat.two_pow_add_eq_or_of_lt h3]
  omega

end

section
variable (w : Word)

theorem toNat_fieldF : (fieldF w).toNat = w.toNat / 4096 := by
  have := w.isLt
  simp only [fieldF, BitVec.extractLsb'_toNat, Nat.shiftRight_eq_div_pow]
  omega

theorem toNat_fieldX : (fieldX w).toNat = w.toNat / 256 % 16 := by
  simp [fieldX, BitVec.extractLsb'_toNat, Nat.shiftRight_eq_div_pow]

theorem toNat_fieldY : (fieldY w).toNat = w.toNat / 16 % 16 := by
  simp [fieldY, BitVec.extractLsb'_toNat, Nat.shiftRight_eq_div_pow]

theorem toNat_fieldN : (fieldN w).toNat = w.toNat % 16 := by
  simp [fieldN, BitVec.extractLsb'_toNat]

theorem toNat_fieldNn : (fieldNn w).toNat = w.toNat % 256 := by
  simp [fieldNn, BitVec.extractLsb'_toNat]

theorem toNat_fieldNnn : (fieldNnn w).toNat = w.toNat % 4096 := by
  simp [fieldNnn, BitVec.extractLsb'_toNat]

theorem toNat_highByte : (highByte w).toNat = w.toNat / 256 := by
  have := w.isLt
  simp only [highByte, BitVec.extractLsb'_toNat, Nat.shiftRight_eq_div_pow]
  omega

theorem toNat_lowByte : (lowByte w).toNat = w.toNat % 256 := by
  simp [lowByte, BitVec.extractLsb'_toNat]

end

theorem toNat_wordOfBytes (hi lo : Byte) : (wordOfBytes hi lo).toNat = hi.toNat * 256 + lo.toNat := by
  have h : (wordOfBytes hi lo).toNat = hi.toNat <<< 8 ||| lo.toNat := BitVec.toNat_append hi lo
  rw [h, Nat.shiftLeft_eq, Nat.mul_comm, ← Nat.two_pow_add_eq_or_of_lt lo.isLt, Nat.mul_comm]

section
variable (f x y n : Nibble) (nn : Byte) (nnn : Addr12)

@[simp] theorem fieldF_formNnn : fieldF (formNnn f nnn) = f :=
  BitVec.eq_of_toNat_eq (by rw [toNat_fieldF, toNat_formNnn]; have := nnn.isLt; omega)

@[simp] theorem fieldNnn_formNnn : fieldNnn (formNnn f nnn) = nnn :=
  BitVec.eq_of_toNat_eq (by rw [toNat_fieldNnn, toNat_formNnn]; have := nnn.isLt; omega)

@[simp] theorem fieldF_formXnn : fieldF (formXnn f x nn) = f :=
  BitVec.eq_of_toNat_eq (by rw [toNat_fieldF, toNat_formXnn]; have := nn.isLt; have := x.isLt; omega)

@[simp] theorem fieldX_formXnn : fieldX (formXnn f x nn) = x :=
  BitVec.eq_of_toNat_eq (by rw [toNat_fieldX, toNat_formXnn]; have := nn.isLt; have := x.isLt; omega)

@[simp] theorem fieldNn_formXnn : fieldNn (formXnn f x nn) = nn :=
  BitVec.eq_of_toNat_eq (by rw [toNat_fieldNn, toNat_formXnn]; have := nn.isLt; omega)

@[simp] theorem fieldF_formXyn : fieldF (formXyn f x y n) = f :=
  BitVec.eq_of_toNat_eq (by
    rw [toNat_fieldF, toNat_formXyn]; have := n.isLt; have := y.isLt; have := x.isLt; omega)

@[simp] theorem fieldX_formXyn : fieldX (formXyn f x y n) = x :=
  BitVec.eq_of_toNat_eq (by
    rw [toNat_fieldX, toNat_formXyn]; have := n.isLt; have := y.isLt; have := x.isLt; omega)

@[simp] theorem fieldY_formXyn : fieldY (formXyn f x y n) = y :=
  BitVec.eq_of_toNat_eq (by rw [toNat_fieldY, toNat_formXyn]; have := n.isLt; have := y.isLt; omega)

@[simp] theorem fieldN_formXyn : fieldN (formXyn f x y n) = n :=
  BitVec.eq_of_toNat_eq (by rw [toNat_fieldN, toNat_formXyn]; have := n.isLt; omega)

end

/-! ### Putting the fields together -/

section
variable (w : Word)

theorem formNnn_fields : formNnn (fieldF w) (fieldNnn w) = w :=
  BitVec.eq_of_toNat_eq (by rw [toNat_formNnn, toNat_fieldF, toNat_fieldNnn]; omega)

theorem formXnn_fields : formXnn (fieldF w) (fieldX w) (fieldNn w) = w :=
  BitVec.eq_of_toNat_eq (by rw [toNat_formXnn, toNat_fieldF, toNat_fieldX, toNat_fieldNn]; omega)

theorem formXyn_fields : formXyn (fieldF w) (fieldX w) (fieldY w) (fieldN w) = w :=
  BitVec.eq_of_toNat_eq (by rw [toNat_formXyn, toNat_fieldF, toNat_fieldX, toNat_fieldY, toNat_fieldN]; omega)

@[simp] theorem wordOfBytes_high_low : wordOfBytes (highByte w) (lowByte w) = w :=
  BitVec.eq_of_toNat_eq (by rw [toNat_wordOfBytes, toNat_highByte, toNat_lowByte]; omega)

end

/-! ### Masks -/

theorem append_and_append {v w : Nat} (a b : BitVec v) (c d : BitVec w) :
    (a ++ c) &&& (b ++ d) = (a &&& b) ++ (c &&& d) := by
  ext k hk
  simp only [BitVec.getElem_and, BitVec.getElem_append]
  split <;> simp

/-- The bits under the mask F000 are the family. -/
theorem formNnn_and (f : Nibble) (nnn : Addr12) : formNnn f nnn &&& 0xF000#16 = formNnn f 0#12 := by
  have h : (0xF000#16 : Word) = formNnn 0xF#4 0#12 := rfl
  rw [h]
  refine (append_and_append f 0xF#4 nnn 0#12).trans ?_
  simp [formNnn, show f &&& 0xF#4 = f from BitVec.and_allOnes]

/-- The bits under the mask F00F are the family and `n`. -/
theorem formXyn_and (f x y n : Nibble) : formXyn f x y n &&& 0xF00F#16 = formXyn f 0#4 0#4 n := by
  have h : (0xF00F#16 : Word) = formXyn 0xF#4 0#4 0#4 0xF#4 := rfl
  rw [h]
  refine (append_and_append (f ++ x ++ y) (0xF#4 ++ 0#4 ++ 0#4) n 0xF#4).trans ?_
  rw [append_and_append, append_and_append]
  simp [formXyn, show f &&& 0xF#4 = f from BitVec.and_allOnes, show n &&& 0xF#4 = n from BitVec.and_allOnes]

/-- The bits under the mask F0FF are the family and `nn`. -/
theorem formXnn_and (f x : Nibble) (nn : Byte) : formXnn f x nn &&& 0xF0FF#16 = formXnn f 0#4 nn := by
  have h : (0xF0FF#16 : Word) = formXnn 0xF#4 0#4 0xFF#8 := rfl
  rw [h]
  refine (append_and_append (f ++ x) (0xF#4 ++ 0#4) nn 0xFF#8).trans ?_
  rw [append_and_append]
  simp [formXnn, show f &&& 0xF#4 = f from BitVec.and_allOnes, show nn &&& 0xFF#8 = nn from BitVec.and_allOnes]

/-- The other two forms under the mask F000. -/
theorem formXnn_eq_formNnn (f x : Nibble) (nn : Byte) : formXnn f x nn = formNnn f (x ++ nn) :=
  BitVec.eq_of_toNat_eq (by
    have h : (x ++ nn : Addr12).toNat = x.toNat <<< 8 ||| nn.toNat := BitVec.toNat_append x nn
    rw [toNat_formXnn, toNat_formNnn, h, Nat.shiftLeft_eq, Nat.mul_comm x.toNat (2 ^ 8),
      ← Nat.two_pow_add_eq_or_of_lt nn.isLt]
    omega)

theorem formXyn_eq_formXnn (f x y n : Nibble) : formXyn f x y n = formXnn f x (y ++ n) :=
  BitVec.eq_of_toNat_eq (by
    have h : (y ++ n : Byte).toNat = y.toNat <<< 4 ||| n.toNat := BitVec.toNat_append y n
    rw [toNat_formXyn, toNat_formXnn, h, Nat.shiftLeft_eq, Nat.mul_comm y.toNat (2 ^ 4),
      ← Nat.two_pow_add_eq_or_of_lt n.isLt]
    omega)

theorem formXnn_and_family (f x : Nibble) (nn : Byte) : formXnn f x nn &&& 0xF000#16 = formNnn f 0#12 := by
  rw [formXnn_eq_formNnn, formNnn_and]

theorem formXyn_and_family (f x y n : Nibble) : formXyn f x y n &&& 0xF000#16 = formNnn f 0#12 := by
  rw [formXyn_eq_formXnn, formXnn_and_family]

end Sys2Proof
end

