-- ==== Sys2Proof/Laws/State.lean ====
section
/-! SUPPORT. One lemma for each field of State and each update of it, true by rfl; for the updates that are loops, the
lemmas that only their own field changes. -/

namespace Sys2Proof.Machine

/-! ### State.writeV -/

@[simp] theorem State.writeV_mem (s : State) (x : Nibble) (b : Byte) : (s.writeV x b).mem = s.mem := rfl
@[simp] theorem State.writeV_v (s : State) (x : Nibble) (b : Byte) : (s.writeV x b).v = s.v.set x.toNat b x.isLt := rfl
@[simp] theorem State.writeV_i (s : State) (x : Nibble) (b : Byte) : (s.writeV x b).i = s.i := rfl
@[simp] theorem State.writeV_pc (s : State) (x : Nibble) (b : Byte) : (s.writeV x b).pc = s.pc := rfl
@[simp] theorem State.writeV_sp (s : State) (x : Nibble) (b : Byte) : (s.writeV x b).sp = s.sp := rfl
@[simp] theorem State.writeV_stack (s : State) (x : Nibble) (b : Byte) : (s.writeV x b).stack = s.stack := rfl
@[simp] theorem State.writeV_dt (s : State) (x : Nibble) (b : Byte) : (s.writeV x b).dt = s.dt := rfl
@[simp] theorem State.writeV_st (s : State) (x : Nibble) (b : Byte) : (s.writeV x b).st = s.st := rfl
@[simp] theorem State.writeV_runState (s : State) (x : Nibble) (b : Byte) : (s.writeV x b).runState = s.runState := rfl
@[simp] theorem State.writeV_fault (s : State) (x : Nibble) (b : Byte) : (s.writeV x b).fault = s.fault := rfl
@[simp] theorem State.writeV_status (s : State) (x : Nibble) (b : Byte) : (s.writeV x b).status = s.status := rfl
@[simp] theorem State.writeV_requests (s : State) (x : Nibble) (b : Byte) : (s.writeV x b).requests = s.requests := rfl
@[simp] theorem State.writeV_cfg (s : State) (x : Nibble) (b : Byte) : (s.writeV x b).cfg = s.cfg := rfl
@[simp] theorem State.writeV_pending (s : State) (x : Nibble) (b : Byte) : (s.writeV x b).pending = s.pending := rfl
@[simp] theorem State.writeV_draws (s : State) (x : Nibble) (b : Byte) : (s.writeV x b).draws = s.draws := rfl

/-! ### State.writeVF -/

@[simp] theorem State.writeVF_mem (s : State) (b : Byte) : (s.writeVF b).mem = s.mem := rfl
@[simp] theorem State.writeVF_v (s : State) (b : Byte) : (s.writeVF b).v = s.v.set 15 b (by decide) := rfl
@[simp] theorem State.writeVF_i (s : State) (b : Byte) : (s.writeVF b).i = s.i := rfl
@[simp] theorem State.writeVF_pc (s : State) (b : Byte) : (s.writeVF b).pc = s.pc := rfl
@[simp] theorem State.writeVF_sp (s : State) (b : Byte) : (s.writeVF b).sp = s.sp := rfl
@[simp] theorem State.writeVF_stack (s : State) (b : Byte) : (s.writeVF b).stack = s.stack := rfl
@[simp] theorem State.writeVF_dt (s : State) (b : Byte) : (s.writeVF b).dt = s.dt := rfl
@[simp] theorem State.writeVF_st (s : State) (b : Byte) : (s.writeVF b).st = s.st := rfl
@[simp] theorem State.writeVF_runState (s : State) (b : Byte) : (s.writeVF b).runState = s.runState := rfl
@[simp] theorem State.writeVF_fault (s : State) (b : Byte) : (s.writeVF b).fault = s.fault := rfl
@[simp] theorem State.writeVF_status (s : State) (b : Byte) : (s.writeVF b).status = s.status := rfl
@[simp] theorem State.writeVF_requests (s : State) (b : Byte) : (s.writeVF b).requests = s.requests := rfl
@[simp] theorem State.writeVF_cfg (s : State) (b : Byte) : (s.writeVF b).cfg = s.cfg := rfl
@[simp] theorem State.writeVF_pending (s : State) (b : Byte) : (s.writeVF b).pending = s.pending := rfl
@[simp] theorem State.writeVF_draws (s : State) (b : Byte) : (s.writeVF b).draws = s.draws := rfl

/-! ### State.storeByte -/

@[simp] theorem State.storeByte_mem (s : State) (a : Nat) (b : Byte) : (s.storeByte a b).mem = Memory.write s.cfg s.mem a b := rfl
@[simp] theorem State.storeByte_v (s : State) (a : Nat) (b : Byte) : (s.storeByte a b).v = s.v := rfl
@[simp] theorem State.storeByte_i (s : State) (a : Nat) (b : Byte) : (s.storeByte a b).i = s.i := rfl
@[simp] theorem State.storeByte_pc (s : State) (a : Nat) (b : Byte) : (s.storeByte a b).pc = s.pc := rfl
@[simp] theorem State.storeByte_sp (s : State) (a : Nat) (b : Byte) : (s.storeByte a b).sp = s.sp := rfl
@[simp] theorem State.storeByte_stack (s : State) (a : Nat) (b : Byte) : (s.storeByte a b).stack = s.stack := rfl
@[simp] theorem State.storeByte_dt (s : State) (a : Nat) (b : Byte) : (s.storeByte a b).dt = s.dt := rfl
@[simp] theorem State.storeByte_st (s : State) (a : Nat) (b : Byte) : (s.storeByte a b).st = s.st := rfl
@[simp] theorem State.storeByte_runState (s : State) (a : Nat) (b : Byte) : (s.storeByte a b).runState = s.runState := rfl
@[simp] theorem State.storeByte_fault (s : State) (a : Nat) (b : Byte) : (s.storeByte a b).fault = s.fault := rfl
@[simp] theorem State.storeByte_status (s : State) (a : Nat) (b : Byte) : (s.storeByte a b).status = s.status := rfl
@[simp] theorem State.storeByte_requests (s : State) (a : Nat) (b : Byte) : (s.storeByte a b).requests = s.requests := rfl
@[simp] theorem State.storeByte_cfg (s : State) (a : Nat) (b : Byte) : (s.storeByte a b).cfg = s.cfg := rfl
@[simp] theorem State.storeByte_pending (s : State) (a : Nat) (b : Byte) : (s.storeByte a b).pending = s.pending := rfl
@[simp] theorem State.storeByte_draws (s : State) (a : Nat) (b : Byte) : (s.storeByte a b).draws = s.draws := rfl

/-! ### State.request -/

@[simp] theorem State.request_mem (s : State) (r : DisplayRequest) : (s.request r).mem = s.mem := rfl
@[simp] theorem State.request_v (s : State) (r : DisplayRequest) : (s.request r).v = s.v := rfl
@[simp] theorem State.request_i (s : State) (r : DisplayRequest) : (s.request r).i = s.i := rfl
@[simp] theorem State.request_pc (s : State) (r : DisplayRequest) : (s.request r).pc = s.pc := rfl
@[simp] theorem State.request_sp (s : State) (r : DisplayRequest) : (s.request r).sp = s.sp := rfl
@[simp] theorem State.request_stack (s : State) (r : DisplayRequest) : (s.request r).stack = s.stack := rfl
@[simp] theorem State.request_dt (s : State) (r : DisplayRequest) : (s.request r).dt = s.dt := rfl
@[simp] theorem State.request_st (s : State) (r : DisplayRequest) : (s.request r).st = s.st := rfl
@[simp] theorem State.request_runState (s : State) (r : DisplayRequest) : (s.request r).runState = s.runState := rfl
@[simp] theorem State.request_fault (s : State) (r : DisplayRequest) : (s.request r).fault = s.fault := rfl
@[simp] theorem State.request_status (s : State) (r : DisplayRequest) : (s.request r).status = s.status := rfl
@[simp] theorem State.request_requests (s : State) (r : DisplayRequest) : (s.request r).requests = s.requests ++ [r] := rfl
@[simp] theorem State.request_cfg (s : State) (r : DisplayRequest) : (s.request r).cfg = s.cfg := rfl
@[simp] theorem State.request_pending (s : State) (r : DisplayRequest) : (s.request r).pending = s.pending := rfl
@[simp] theorem State.request_draws (s : State) (r : DisplayRequest) : (s.request r).draws = s.draws := rfl

/-! ### enterFault -/

@[simp] theorem enterFault_mem (r : FaultRecord) (s : State) : (enterFault r s).mem = s.mem := rfl
@[simp] theorem enterFault_v (r : FaultRecord) (s : State) : (enterFault r s).v = s.v := rfl
@[simp] theorem enterFault_i (r : FaultRecord) (s : State) : (enterFault r s).i = s.i := rfl
@[simp] theorem enterFault_pc (r : FaultRecord) (s : State) : (enterFault r s).pc = s.pc := rfl
@[simp] theorem enterFault_sp (r : FaultRecord) (s : State) : (enterFault r s).sp = s.sp := rfl
@[simp] theorem enterFault_stack (r : FaultRecord) (s : State) : (enterFault r s).stack = s.stack := rfl
@[simp] theorem enterFault_dt (r : FaultRecord) (s : State) : (enterFault r s).dt = s.dt := rfl
@[simp] theorem enterFault_st (r : FaultRecord) (s : State) : (enterFault r s).st = s.st := rfl
@[simp] theorem enterFault_runState (r : FaultRecord) (s : State) : (enterFault r s).runState = .halted := rfl
@[simp] theorem enterFault_fault (r : FaultRecord) (s : State) : (enterFault r s).fault = some r := rfl
@[simp] theorem enterFault_status (r : FaultRecord) (s : State) : (enterFault r s).status = some (.fault r) := rfl
@[simp] theorem enterFault_requests (r : FaultRecord) (s : State) : (enterFault r s).requests = s.requests := rfl
@[simp] theorem enterFault_cfg (r : FaultRecord) (s : State) : (enterFault r s).cfg = s.cfg := rfl
@[simp] theorem enterFault_pending (r : FaultRecord) (s : State) : (enterFault r s).pending = s.pending := rfl
@[simp] theorem enterFault_draws (r : FaultRecord) (s : State) : (enterFault r s).draws = s.draws := rfl

/-! ### performTick -/

@[simp] theorem performTick_mem (s : State) : (performTick s).mem = s.mem := rfl
@[simp] theorem performTick_v (s : State) : (performTick s).v = s.v := rfl
@[simp] theorem performTick_i (s : State) : (performTick s).i = s.i := rfl
@[simp] theorem performTick_pc (s : State) : (performTick s).pc = s.pc := rfl
@[simp] theorem performTick_sp (s : State) : (performTick s).sp = s.sp := rfl
@[simp] theorem performTick_stack (s : State) : (performTick s).stack = s.stack := rfl
@[simp] theorem performTick_dt (s : State) : (performTick s).dt = tickTimer s.dt := rfl
@[simp] theorem performTick_st (s : State) : (performTick s).st = tickTimer s.st := rfl
@[simp] theorem performTick_runState (s : State) : (performTick s).runState = s.runState := rfl
@[simp] theorem performTick_fault (s : State) : (performTick s).fault = s.fault := rfl
@[simp] theorem performTick_status (s : State) : (performTick s).status = s.status := rfl
@[simp] theorem performTick_requests (s : State) : (performTick s).requests = s.requests := rfl
@[simp] theorem performTick_cfg (s : State) : (performTick s).cfg = s.cfg := rfl
@[simp] theorem performTick_pending (s : State) : (performTick s).pending = s.pending := rfl
@[simp] theorem performTick_draws (s : State) : (performTick s).draws = s.draws := rfl

/-! ### retireOp -/

@[simp] theorem retireOp_mem (s : State) : (retireOp s).mem = s.mem := rfl
@[simp] theorem retireOp_v (s : State) : (retireOp s).v = s.v := rfl
@[simp] theorem retireOp_i (s : State) : (retireOp s).i = s.i := rfl
@[simp] theorem retireOp_pc (s : State) : (retireOp s).pc = s.pc := rfl
@[simp] theorem retireOp_sp (s : State) : (retireOp s).sp = s.sp := rfl
@[simp] theorem retireOp_stack (s : State) : (retireOp s).stack = s.stack := rfl
@[simp] theorem retireOp_dt (s : State) : (retireOp s).dt = s.dt := rfl
@[simp] theorem retireOp_st (s : State) : (retireOp s).st = s.st := rfl
@[simp] theorem retireOp_runState (s : State) : (retireOp s).runState = s.runState := rfl
@[simp] theorem retireOp_fault (s : State) : (retireOp s).fault = s.fault := rfl
@[simp] theorem retireOp_status (s : State) : (retireOp s).status = s.status := rfl
@[simp] theorem retireOp_requests (s : State) : (retireOp s).requests = s.requests := rfl
@[simp] theorem retireOp_cfg (s : State) : (retireOp s).cfg = s.cfg := rfl
@[simp] theorem retireOp_pending (s : State) : (retireOp s).pending = s.pending.tail := rfl
@[simp] theorem retireOp_draws (s : State) : (retireOp s).draws = s.draws + 1 := rfl

/-! ### performReset -/

@[simp] theorem performReset_mem (s : State) : (performReset s).mem = [] := rfl
@[simp] theorem performReset_v (s : State) : (performReset s).v = Vector.replicate 16 0 := rfl
@[simp] theorem performReset_i (s : State) : (performReset s).i = 0 := rfl
@[simp] theorem performReset_pc (s : State) : (performReset s).pc = 0x200 := rfl
@[simp] theorem performReset_sp (s : State) : (performReset s).sp = 0 := rfl
@[simp] theorem performReset_stack (s : State) : (performReset s).stack = Vector.replicate 16 0 := rfl
@[simp] theorem performReset_dt (s : State) : (performReset s).dt = 0 := rfl
@[simp] theorem performReset_st (s : State) : (performReset s).st = 0 := rfl
@[simp] theorem performReset_runState (s : State) : (performReset s).runState = .running := rfl
@[simp] theorem performReset_fault (s : State) : (performReset s).fault = none := rfl
@[simp] theorem performReset_status (s : State) : (performReset s).status = none := rfl
@[simp] theorem performReset_requests (s : State) : (performReset s).requests = s.requests := rfl
@[simp] theorem performReset_cfg (s : State) : (performReset s).cfg = s.cfg := rfl
@[simp] theorem performReset_pending (s : State) : (performReset s).pending = s.pending := rfl
@[simp] theorem performReset_draws (s : State) : (performReset s).draws = s.draws := rfl

/-! ### State.storeBytes -/

/-- Only `mem` changes. -/
theorem State.storeBytes_eq (s : State) (a : Nat) (bs : List Byte) : (s.storeBytes a bs) = { s with mem := (s.storeBytes a bs).mem } := by
  induction bs generalizing s a with
  | nil => rfl
  | cons b bs ih => rw [State.storeBytes, ih]; rfl

@[simp] theorem State.storeBytes_v (s : State) (a : Nat) (bs : List Byte) : (s.storeBytes a bs).v = s.v := by rw [State.storeBytes_eq]
@[simp] theorem State.storeBytes_i (s : State) (a : Nat) (bs : List Byte) : (s.storeBytes a bs).i = s.i := by rw [State.storeBytes_eq]
@[simp] theorem State.storeBytes_pc (s : State) (a : Nat) (bs : List Byte) : (s.storeBytes a bs).pc = s.pc := by rw [State.storeBytes_eq]
@[simp] theorem State.storeBytes_sp (s : State) (a : Nat) (bs : List Byte) : (s.storeBytes a bs).sp = s.sp := by rw [State.storeBytes_eq]
@[simp] theorem State.storeBytes_stack (s : State) (a : Nat) (bs : List Byte) : (s.storeBytes a bs).stack = s.stack := by rw [State.storeBytes_eq]
@[simp] theorem State.storeBytes_dt (s : State) (a : Nat) (bs : List Byte) : (s.storeBytes a bs).dt = s.dt := by rw [State.storeBytes_eq]
@[simp] theorem State.storeBytes_st (s : State) (a : Nat) (bs : List Byte) : (s.storeBytes a bs).st = s.st := by rw [State.storeBytes_eq]
@[simp] theorem State.storeBytes_runState (s : State) (a : Nat) (bs : List Byte) : (s.storeBytes a bs).runState = s.runState := by rw [State.storeBytes_eq]
@[simp] theorem State.storeBytes_fault (s : State) (a : Nat) (bs : List Byte) : (s.storeBytes a bs).fault = s.fault := by rw [State.storeBytes_eq]
@[simp] theorem State.storeBytes_status (s : State) (a : Nat) (bs : List Byte) : (s.storeBytes a bs).status = s.status := by rw [State.storeBytes_eq]
@[simp] theorem State.storeBytes_requests (s : State) (a : Nat) (bs : List Byte) : (s.storeBytes a bs).requests = s.requests := by rw [State.storeBytes_eq]
@[simp] theorem State.storeBytes_cfg (s : State) (a : Nat) (bs : List Byte) : (s.storeBytes a bs).cfg = s.cfg := by rw [State.storeBytes_eq]
@[simp] theorem State.storeBytes_pending (s : State) (a : Nat) (bs : List Byte) : (s.storeBytes a bs).pending = s.pending := by rw [State.storeBytes_eq]
@[simp] theorem State.storeBytes_draws (s : State) (a : Nat) (bs : List Byte) : (s.storeBytes a bs).draws = s.draws := by rw [State.storeBytes_eq]

/-! ### State.loadRegs -/

/-- Only `v` changes. -/
theorem State.loadRegs_eq (s : State) (k : Nat) (bs : List Byte) : (s.loadRegs k bs) = { s with v := (s.loadRegs k bs).v } := by
  induction bs generalizing s k with
  | nil => rfl
  | cons b bs ih => rw [State.loadRegs, ih]; rfl

@[simp] theorem State.loadRegs_mem (s : State) (k : Nat) (bs : List Byte) : (s.loadRegs k bs).mem = s.mem := by rw [State.loadRegs_eq]
@[simp] theorem State.loadRegs_i (s : State) (k : Nat) (bs : List Byte) : (s.loadRegs k bs).i = s.i := by rw [State.loadRegs_eq]
@[simp] theorem State.loadRegs_pc (s : State) (k : Nat) (bs : List Byte) : (s.loadRegs k bs).pc = s.pc := by rw [State.loadRegs_eq]
@[simp] theorem State.loadRegs_sp (s : State) (k : Nat) (bs : List Byte) : (s.loadRegs k bs).sp = s.sp := by rw [State.loadRegs_eq]
@[simp] theorem State.loadRegs_stack (s : State) (k : Nat) (bs : List Byte) : (s.loadRegs k bs).stack = s.stack := by rw [State.loadRegs_eq]
@[simp] theorem State.loadRegs_dt (s : State) (k : Nat) (bs : List Byte) : (s.loadRegs k bs).dt = s.dt := by rw [State.loadRegs_eq]
@[simp] theorem State.loadRegs_st (s : State) (k : Nat) (bs : List Byte) : (s.loadRegs k bs).st = s.st := by rw [State.loadRegs_eq]
@[simp] theorem State.loadRegs_runState (s : State) (k : Nat) (bs : List Byte) : (s.loadRegs k bs).runState = s.runState := by rw [State.loadRegs_eq]
@[simp] theorem State.loadRegs_fault (s : State) (k : Nat) (bs : List Byte) : (s.loadRegs k bs).fault = s.fault := by rw [State.loadRegs_eq]
@[simp] theorem State.loadRegs_status (s : State) (k : Nat) (bs : List Byte) : (s.loadRegs k bs).status = s.status := by rw [State.loadRegs_eq]
@[simp] theorem State.loadRegs_requests (s : State) (k : Nat) (bs : List Byte) : (s.loadRegs k bs).requests = s.requests := by rw [State.loadRegs_eq]
@[simp] theorem State.loadRegs_cfg (s : State) (k : Nat) (bs : List Byte) : (s.loadRegs k bs).cfg = s.cfg := by rw [State.loadRegs_eq]
@[simp] theorem State.loadRegs_pending (s : State) (k : Nat) (bs : List Byte) : (s.loadRegs k bs).pending = s.pending := by rw [State.loadRegs_eq]
@[simp] theorem State.loadRegs_draws (s : State) (k : Nat) (bs : List Byte) : (s.loadRegs k bs).draws = s.draws := by rw [State.loadRegs_eq]

/-! ### loadFrom -/

/-- Only `mem` changes. -/
theorem loadFrom_eq (s : State) (k : Nat) (bs : List Byte) : (loadFrom s k bs) = { s with mem := (loadFrom s k bs).mem } := by
  induction bs generalizing s k with
  | nil => rfl
  | cons b bs ih => rw [loadFrom, ih]; split <;> rfl

@[simp] theorem loadFrom_v (s : State) (k : Nat) (bs : List Byte) : (loadFrom s k bs).v = s.v := by rw [loadFrom_eq]
@[simp] theorem loadFrom_i (s : State) (k : Nat) (bs : List Byte) : (loadFrom s k bs).i = s.i := by rw [loadFrom_eq]
@[simp] theorem loadFrom_pc (s : State) (k : Nat) (bs : List Byte) : (loadFrom s k bs).pc = s.pc := by rw [loadFrom_eq]
@[simp] theorem loadFrom_sp (s : State) (k : Nat) (bs : List Byte) : (loadFrom s k bs).sp = s.sp := by rw [loadFrom_eq]
@[simp] theorem loadFrom_stack (s : State) (k : Nat) (bs : List Byte) : (loadFrom s k bs).stack = s.stack := by rw [loadFrom_eq]
@[simp] theorem loadFrom_dt (s : State) (k : Nat) (bs : List Byte) : (loadFrom s k bs).dt = s.dt := by rw [loadFrom_eq]
@[simp] theorem loadFrom_st (s : State) (k : Nat) (bs : List Byte) : (loadFrom s k bs).st = s.st := by rw [loadFrom_eq]
@[simp] theorem loadFrom_runState (s : State) (k : Nat) (bs : List Byte) : (loadFrom s k bs).runState = s.runState := by rw [loadFrom_eq]
@[simp] theorem loadFrom_fault (s : State) (k : Nat) (bs : List Byte) : (loadFrom s k bs).fault = s.fault := by rw [loadFrom_eq]
@[simp] theorem loadFrom_status (s : State) (k : Nat) (bs : List Byte) : (loadFrom s k bs).status = s.status := by rw [loadFrom_eq]
@[simp] theorem loadFrom_requests (s : State) (k : Nat) (bs : List Byte) : (loadFrom s k bs).requests = s.requests := by rw [loadFrom_eq]
@[simp] theorem loadFrom_cfg (s : State) (k : Nat) (bs : List Byte) : (loadFrom s k bs).cfg = s.cfg := by rw [loadFrom_eq]
@[simp] theorem loadFrom_pending (s : State) (k : Nat) (bs : List Byte) : (loadFrom s k bs).pending = s.pending := by rw [loadFrom_eq]
@[simp] theorem loadFrom_draws (s : State) (k : Nat) (bs : List Byte) : (loadFrom s k bs).draws = s.draws := by rw [loadFrom_eq]

end Sys2Proof.Machine
end

