-- ==== Sys2Proof/Laws/Memory.lean ====
section
/-! SUPPORT. Memory: a read after a write, the canonical form, and what the access operations can answer. -/

namespace Sys2Proof.Machine

/-! ### The list -/

theorem Memory.lookup_erase_same (m : Memory) (a : Nat) : Memory.lookup (Memory.erase m a) a = none := by
  induction m with
  | nil => rfl
  | cons p m ih =>
    obtain ⟨k, b⟩ := p
    by_cases h : k = a <;> simp_all [Memory.erase, Memory.lookup]

theorem Memory.lookup_erase_other (m : Memory) {a c : Nat} (h : c ≠ a) :
    Memory.lookup (Memory.erase m a) c = Memory.lookup m c := by
  induction m with
  | nil => rfl
  | cons p m ih =>
    obtain ⟨k, b⟩ := p
    by_cases hk : k = a
    · subst hk
      have : ¬ k = c := fun e => h e.symm
      simp_all [Memory.erase, Memory.lookup]
    · simp_all [Memory.erase, Memory.lookup]

theorem Memory.lookup_insert_same (m : Memory) (a : Nat) (b : Byte) (h : Memory.lookup m a = none) :
    Memory.lookup (Memory.insert a b m) a = some b := by
  induction m with
  | nil => simp [Memory.insert, Memory.lookup]
  | cons p m ih =>
    obtain ⟨k, c⟩ := p
    by_cases hk : k = a
    · simp [Memory.lookup, hk] at h
    · simp only [Memory.lookup, hk, if_false] at h
      by_cases hlt : a < k <;> simp [Memory.insert, Memory.lookup, hlt, hk, ih h]

theorem Memory.lookup_insert_other (m : Memory) {a c : Nat} (b : Byte) (h : c ≠ a) :
    Memory.lookup (Memory.insert a b m) c = Memory.lookup m c := by
  have h' : ¬ a = c := fun e => h e.symm
  induction m with
  | nil => simp [Memory.insert, Memory.lookup, h']
  | cons p m ih =>
    obtain ⟨k, d⟩ := p
    by_cases hlt : a < k <;> simp [Memory.insert, Memory.lookup, hlt, h', ih]

theorem Memory.mem_insert {m : Memory} {a : Nat} {b : Byte} {p : Host.Cell} :
    p ∈ Memory.insert a b m ↔ p = (a, b) ∨ p ∈ m := by
  induction m with
  | nil => simp [Memory.insert]
  | cons q m ih =>
    by_cases hlt : a < q.1
    · simp [Memory.insert, hlt]
    · simp only [Memory.insert, hlt, if_false, List.mem_cons, ih]
      tauto

theorem Memory.rising_insert {m : Memory} {a : Nat} {b : Byte} (hm : m.Pairwise fun p q => p.1 < q.1)
    (ha : ∀ p ∈ m, p.1 ≠ a) : (Memory.insert a b m).Pairwise fun p q => p.1 < q.1 := by
  induction m with
  | nil => simp [Memory.insert]
  | cons q m ih =>
    obtain ⟨hq, hm⟩ := List.pairwise_cons.1 hm
    by_cases hlt : a < q.1
    · simp only [Memory.insert, hlt, if_true]
      refine List.pairwise_cons.2 ⟨fun p hp => ?_, List.pairwise_cons.2 ⟨hq, hm⟩⟩
      rcases List.mem_cons.1 hp with rfl | hp
      · exact hlt
      · exact hlt.trans (hq p hp)
    · simp only [Memory.insert, hlt, if_false]
      have hqa : q.1 < a := by
        have := ha q (by simp)
        omega
      refine List.pairwise_cons.2 ⟨fun p hp => ?_, ih hm fun p hp => ha p (by simp [hp])⟩
      rcases Memory.mem_insert.1 hp with rfl | hp
      · exact hqa
      · exact hq p hp

theorem Memory.lookup_none_of_lt {m : Memory} {a : Nat} (h : ∀ p ∈ m, a < p.1) : Memory.lookup m a = none := by
  induction m with
  | nil => rfl
  | cons p m ih =>
    obtain ⟨k, b⟩ := p
    have hk : a < k := h (k, b) (by simp)
    have : ¬ k = a := by omega
    simp [Memory.lookup, this, ih fun q hq => h q (by simp [hq])]

/-! ### One byte -/

theorem Memory.read_write_same (c : Config) (m : Memory) (a : Nat) (b : Byte) :
    Memory.read c (Memory.write c m a b) a = b := by
  unfold Memory.read Memory.write
  split
  · simp_all [Memory.lookup_erase_same]
  · simp [Memory.lookup_insert_same _ _ _ (Memory.lookup_erase_same m a)]

theorem Memory.read_write_other (c : Config) (m : Memory) {a a' : Nat} (b : Byte) (h : a' ≠ a) :
    Memory.read c (Memory.write c m a b) a' = Memory.read c m a' := by
  unfold Memory.read Memory.write
  split
  · rw [Memory.lookup_erase_other m h]
  · rw [Memory.lookup_insert_other _ b h, Memory.lookup_erase_other m h]

/-- Every write inside memory keeps the canonical form. -/
theorem Memory.wf_write {c : Config} {m : Memory} (h : Memory.wf c m) {a : Nat} (ha : a < memSize) (b : Byte) :
    Memory.wf c (Memory.write c m a b) := by
  obtain ⟨hr, hv⟩ := h
  have he : ∀ p ∈ Memory.erase m a, p ∈ m ∧ p.1 ≠ a := fun p hp => by simpa [Memory.erase] using hp
  have hre : (Memory.erase m a).Pairwise fun p q => p.1 < q.1 := hr.filter _
  unfold Memory.write
  split
  · exact ⟨hre, fun p hp => hv p (he p hp).1⟩
  · refine ⟨Memory.rising_insert hre fun p hp => (he p hp).2, fun p hp => ?_⟩
    rcases Memory.mem_insert.1 hp with rfl | hp
    · exact ⟨ha, ‹_›⟩
    · exact hv p (he p hp).1

theorem Memory.wf_nil (c : Config) : Memory.wf c [] := ⟨.nil, fun _ h => absurd h (by simp)⟩

@[simp] theorem State.readByte_storeByte_same (s : State) (a : Nat) (b : Byte) : (s.storeByte a b).readByte a = b :=
  Memory.read_write_same s.cfg s.mem a b

theorem State.readByte_storeByte_other (s : State) {a a' : Nat} (b : Byte) (h : a' ≠ a) :
    (s.storeByte a b).readByte a' = s.readByte a' :=
  Memory.read_write_other s.cfg s.mem b h

/-- A byte read depends on the parameters and the memory alone. -/
theorem State.readByte_congr {s t : State} (hm : t.mem = s.mem) (hc : t.cfg = s.cfg) (a : Nat) :
    t.readByte a = s.readByte a := by
  simp [State.readByte, hm, hc]

/-! ### Sequences of bytes -/

/-- What memory holds after a sequence of bytes is stored. -/
theorem State.readByte_storeBytes (s : State) (a : Nat) (bs : List Byte) (c : Nat) :
    (s.storeBytes a bs).readByte c = if h : a ≤ c ∧ c - a < bs.length then bs[c - a]'h.2 else s.readByte c := by
  induction bs generalizing s a with
  | nil => simp [State.storeBytes]
  | cons b bs ih =>
    rw [State.storeBytes, ih]
    by_cases hca : c = a
    · subst hca
      rw [dif_neg (by omega), dif_pos (by simp)]
      simp
    · rw [State.readByte_storeByte_other s b hca]
      by_cases h : a + 1 ≤ c ∧ c - (a + 1) < bs.length
      · rw [dif_pos h, dif_pos (by simp only [List.length_cons]; omega)]
        have : c - a = (c - (a + 1)) + 1 := by omega
        simp [this]
      · rw [dif_neg h, dif_neg (by simp only [List.length_cons]; omega)]

theorem State.wf_storeBytes {s : State} (h : Memory.wf s.cfg s.mem) {a : Nat} {bs : List Byte}
    (hb : a + bs.length ≤ memSize) : Memory.wf s.cfg (s.storeBytes a bs).mem := by
  induction bs generalizing s a with
  | nil => exact h
  | cons b bs ih =>
    simp only [List.length_cons] at hb
    exact ih (s := s.storeByte a b) (Memory.wf_write h (by omega) b) (by omega)

/-- What memory holds after LOAD. -/
theorem readByte_loadFrom (s : State) (k : Nat) (bs : List Byte) (c : Nat) :
    (loadFrom s k bs).readByte c =
      if h : origin + k ≤ c ∧ c - (origin + k) < bs.length ∧ c < memSize then bs[c - (origin + k)]'h.2.1
      else s.readByte c := by
  induction bs generalizing s k with
  | nil => simp [loadFrom]
  | cons b bs ih =>
    rw [loadFrom, ih]
    by_cases hck : c = origin + k
    · subst hck
      rw [dif_neg (by omega)]
      by_cases hm : origin + k < memSize
      · rw [if_pos hm, dif_pos (by simp [hm])]
        simp
      · rw [if_neg hm, dif_neg (by omega)]
    · have hs : (if origin + k < memSize then s.storeByte (origin + k) b else s).readByte c = s.readByte c := by
        split
        · exact State.readByte_storeByte_other s b hck
        · rfl
      rw [hs]
      by_cases h : origin + (k + 1) ≤ c ∧ c - (origin + (k + 1)) < bs.length ∧ c < memSize
      · rw [dif_pos h, dif_pos (by simp only [List.length_cons]; omega)]
        have : c - (origin + k) = (c - (origin + (k + 1))) + 1 := by omega
        simp [this]
      · rw [dif_neg h, dif_neg (by simp only [List.length_cons]; omega)]

theorem wf_loadFrom {s : State} (h : Memory.wf s.cfg s.mem) (k : Nat) (bs : List Byte) :
    Memory.wf s.cfg (loadFrom s k bs).mem := by
  induction bs generalizing s k with
  | nil => exact h
  | cons b bs ih =>
    rw [loadFrom]
    split
    · exact ih (s := s.storeByte (origin + k) b) (Memory.wf_write h ‹_› b) (k + 1)
    · exact ih h (k + 1)

/-! ### The bounds check -/

theorem firstFailing_eq_none {bad : Nat → Bool} {a n : Nat} :
    firstFailing bad a n = none ↔ ∀ k, k < n → bad (a + k) = false := by
  induction n generalizing a with
  | zero => simp [firstFailing]
  | succ n ih =>
    rw [firstFailing]
    constructor
    · intro h k hk
      split at h
      · cases h
      · cases k with
        | zero => simpa using ‹¬ bad a = true›
        | succ k =>
          have := ih.1 h k (by omega)
          rwa [show a + 1 + k = a + (k + 1) by omega] at this
    · intro h
      have h0 : bad a = false := h 0 (by omega)
      rw [if_neg (by simp [h0])]
      exact ih.2 fun k hk => by
        have := h (k + 1) (by omega)
        rwa [show a + (k + 1) = a + 1 + k by omega] at this

/-- The address reported is the lowest that fails. -/
theorem firstFailing_eq_some {bad : Nat → Bool} {a n f : Nat} :
    firstFailing bad a n = some f ↔ ∃ k, k < n ∧ f = a + k ∧ bad f = true ∧ ∀ j, j < k → bad (a + j) = false := by
  induction n generalizing a with
  | zero => simp [firstFailing]
  | succ n ih =>
    rw [firstFailing]
    constructor
    · intro h
      split at h
      · cases h
        exact ⟨0, by omega, rfl, ‹_›, fun j hj => by omega⟩
      · obtain ⟨k, hk, rfl, hf, hj⟩ := ih.1 h
        refine ⟨k + 1, by omega, by omega, hf, fun j hjk => ?_⟩
        cases j with
        | zero => simpa using ‹¬ bad a = true›
        | succ j =>
          have := hj j (by omega)
          rwa [show a + 1 + j = a + (j + 1) by omega] at this
    · rintro ⟨k, hk, rfl, hf, hj⟩
      cases k with
      | zero => simp_all
      | succ k =>
        have h0 : bad a = false := hj 0 (by omega)
        rw [if_neg (by simp [h0])]
        refine ih.2 ⟨k, by omega, by omega, hf, fun j hjk => ?_⟩
        have := hj (j + 1) (by omega)
        rwa [show a + (j + 1) = a + 1 + j by omega] at this

/-- A read inside memory answers its bytes. -/
theorem State.memRead_ok (s : State) {a n : Nat} (h : n = 0 ∨ a + n ≤ memSize) :
    s.memRead a n = .ok ((List.range n).map fun k => s.readByte (a + k)) := by
  have : firstFailing outsideMemory a n = none :=
    firstFailing_eq_none.2 fun k hk => by simp only [outsideMemory, decide_eq_false_iff_not]; omega
  simp [State.memRead, this]

/-- A read that leaves memory answers the lowest address outside. -/
theorem State.memRead_error (s : State) {a n : Nat} (hn : n ≠ 0) (h : memSize < a + n) :
    s.memRead a n = .error (max memSize a) := by
  have : firstFailing outsideMemory a n = some (max memSize a) :=
    firstFailing_eq_some.2 ⟨max memSize a - a, by omega, by omega, by simp [outsideMemory],
      fun j hj => by simp only [outsideMemory, decide_eq_false_iff_not]; omega⟩
  simp [State.memRead, this]

/-- A write to addresses that may be written stores its bytes. -/
theorem State.memWrite_ok (s : State) {a : Nat} {bs : List Byte} (h : a + bs.length ≤ memSize)
    (hp : ¬ (s.cfg.protectReserved = true ∧ a < origin)) : s.memWrite a bs = .ok (s.storeBytes a bs) := by
  have : firstFailing (writeForbidden s.cfg) a bs.length = none :=
    firstFailing_eq_none.2 fun k hk => by
      simp only [writeForbidden, outsideMemory, Bool.or_eq_false_iff, Bool.and_eq_false_iff, decide_eq_false_iff_not]
      refine ⟨by omega, ?_⟩
      by_cases hc : s.cfg.protectReserved = true
      · exact .inr (by have : ¬ a < origin := fun e => hp ⟨hc, e⟩; omega)
      · exact .inl (by simpa using hc)
  simp [State.memWrite, this]

/-- Under PROTECT_RESERVED a write that begins below ORIGIN answers its first address. -/
theorem State.memWrite_error_reserved (s : State) {a : Nat} {bs : List Byte} (hb : bs ≠ [])
    (hp : s.cfg.protectReserved = true) (ha : a < origin) : s.memWrite a bs = .error a := by
  have hl : bs.length ≠ 0 := by simpa using hb
  have : firstFailing (writeForbidden s.cfg) a bs.length = some a :=
    firstFailing_eq_some.2 ⟨0, by omega, rfl, by simp [writeForbidden, hp, ha], fun j hj => by omega⟩
  simp [State.memWrite, this]

/-- A write that leaves memory answers the lowest address outside, when none below ORIGIN is forbidden first. -/
theorem State.memWrite_error_outside (s : State) {a : Nat} {bs : List Byte} (hb : bs ≠ []) (h : memSize < a + bs.length)
    (hp : ¬ (s.cfg.protectReserved = true ∧ a < origin)) : s.memWrite a bs = .error (max memSize a) := by
  have hl : bs.length ≠ 0 := by simpa using hb
  have : firstFailing (writeForbidden s.cfg) a bs.length = some (max memSize a) :=
    firstFailing_eq_some.2 ⟨max memSize a - a, by omega, by omega, by simp [writeForbidden, outsideMemory],
      fun j hj => by
        simp only [writeForbidden, outsideMemory, Bool.or_eq_false_iff, Bool.and_eq_false_iff,
          decide_eq_false_iff_not]
        refine ⟨by omega, ?_⟩
        by_cases hc : s.cfg.protectReserved = true
        · exact .inr (by have : ¬ a < origin := fun e => hp ⟨hc, e⟩; omega)
        · exact .inl (by simpa using hc)⟩
  simp [State.memWrite, this]

/-- What a write that answers a state can have done. -/
theorem State.memWrite_cases {s t : State} {a : Nat} {bs : List Byte} (h : s.memWrite a bs = .ok t) :
    t = s.storeBytes a bs ∧ (bs = [] ∨ a + bs.length ≤ memSize) := by
  unfold State.memWrite at h
  split at h
  · cases h
  · rename_i hf
    refine ⟨(by cases h; rfl), ?_⟩
    rcases Nat.eq_zero_or_pos bs.length with h0 | h0
    · exact .inl (by simpa using h0)
    · have := firstFailing_eq_none.1 hf (bs.length - 1) (by omega)
      simp only [writeForbidden, outsideMemory, Bool.or_eq_false_iff, decide_eq_false_iff_not] at this
      omega

end Sys2Proof.Machine
end

