-- ==== Sys2Proof/Laws/Registers.lean ====
section
/-! SUPPORT. The V registers, the stack and the flag: what each shared operation does, once. -/

namespace Sys2Proof.Machine

/-! ### V registers -/

@[simp] theorem State.readV_writeV_same (s : State) (x : Nibble) (b : Byte) : (s.writeV x b).readV x = b := by
  simp [State.readV, State.writeV]

theorem State.readV_writeV_other (s : State) {x r : Nibble} (b : Byte) (h : r ≠ x) :
    (s.writeV x b).readV r = s.readV r := by
  have : x.toNat ≠ r.toNat := fun e => h (BitVec.eq_of_toNat_eq e.symm)
  simp [State.readV, State.writeV, Vector.getElem_set_ne _ _ this]

theorem State.readV_writeV (s : State) (x r : Nibble) (b : Byte) :
    (s.writeV x b).readV r = if r = x then b else s.readV r := by
  split
  · subst r; simp
  · exact s.readV_writeV_other b ‹_›

theorem State.readV_writeVF (s : State) (r : Nibble) (b : Byte) :
    (s.writeVF b).readV r = if r = 0xF then b else s.readV r := s.readV_writeV flagReg r b

/-- A register read depends on the register file alone. -/
theorem State.readV_congr {s t : State} (h : t.v = s.v) (r : Nibble) : t.readV r = s.readV r := by
  simp [State.readV, h]

/-- What the registers hold after a sequence of bytes is loaded. -/
theorem State.readV_loadRegs (s : State) (k : Nat) (bs : List Byte) (hk : k + bs.length ≤ 16) (r : Nibble) :
    (s.loadRegs k bs).readV r =
      if h : k ≤ r.toNat ∧ r.toNat - k < bs.length then bs[r.toNat - k]'h.2 else s.readV r := by
  induction bs generalizing s k with
  | nil => simp [State.loadRegs]
  | cons b bs ih =>
    simp only [List.length_cons] at hk
    rw [State.loadRegs, ih _ _ (by omega), State.readV_writeV]
    have hkt : (BitVec.ofNat 4 k).toNat = k := by simp only [BitVec.toNat_ofNat]; omega
    by_cases hr : r.toNat = k
    · have : r = BitVec.ofNat 4 k := BitVec.eq_of_toNat_eq (by omega)
      rw [dif_neg (by omega), if_pos this, dif_pos (by simp only [List.length_cons]; omega)]
      simp [hr]
    · have : ¬ r = BitVec.ofNat 4 k := fun e => hr (by rw [e, hkt])
      rw [if_neg this]
      by_cases h : k + 1 ≤ r.toNat ∧ r.toNat - (k + 1) < bs.length
      · rw [dif_pos h, dif_pos (by simp only [List.length_cons]; omega)]
        have : r.toNat - k = (r.toNat - (k + 1)) + 1 := by omega
        simp [this]
      · rw [dif_neg h, dif_neg (by simp only [List.length_cons]; omega)]

@[simp] theorem State.length_regsUpTo (s : State) (x : Nibble) : (s.regsUpTo x).length = x.toNat + 1 := by
  simp [State.regsUpTo]

theorem State.regsUpTo_ne_nil (s : State) (x : Nibble) : s.regsUpTo x ≠ [] := by
  intro h
  have := s.length_regsUpTo x
  rw [h] at this
  cases this

theorem State.getElem_regsUpTo (s : State) (x : Nibble) (k : Nat) (h : k < (s.regsUpTo x).length) :
    (s.regsUpTo x)[k] = s.readV (BitVec.ofNat 4 k) := by
  simp [State.regsUpTo]

/-! ### The stack -/

theorem State.push_some (s : State) (w : Word) (h : s.sp.val < 16) :
    s.push w = some { s with stack := s.stack.set s.sp.val w h, sp := ⟨s.sp.val + 1, by omega⟩ } := by
  simp [State.push, h]

theorem State.push_none (s : State) (w : Word) (h : s.sp.val = 16) : s.push w = none := by
  simp [State.push, h]

theorem State.pop_some (s : State) (h : 0 < s.sp.val) :
    s.pop = some (s.stack[s.sp.val - 1]'(by omega), { s with sp := ⟨s.sp.val - 1, by omega⟩ }) := by
  simp [State.pop, h]

theorem State.pop_none (s : State) (h : s.sp.val = 0) : s.pop = none := by
  simp [State.pop, h]

/-! ### The flag -/

theorem flagByte_zero_or_one (b : Bool) : flagByte b = 0 ∨ flagByte b = 1 := by
  cases b <;> simp [flagByte]

theorem toNat_add8 (a b : Byte) : (add8 a b).toNat = (a.toNat + b.toNat) % 256 := by simp [add8]

theorem toNat_sub8 (a b : Byte) : (sub8 a b).toNat = (a.toNat + 256 - b.toNat) % 256 := by simp [sub8]

theorem toNat_shiftRight1 (a : Byte) : (shiftRight1 a).toNat = a.toNat / 2 := by
  simp [shiftRight1, BitVec.toNat_ushiftRight, Nat.shiftRight_eq_div_pow]

theorem toNat_shiftLeft1 (a : Byte) : (shiftLeft1 a).toNat = 2 * a.toNat % 256 := by
  simp [shiftLeft1, BitVec.toNat_shiftLeft, Nat.shiftLeft_eq, Nat.mul_comm]

theorem toNat_flagByte_bitOutRight (a : Byte) : (flagByte (bitOutRight a)).toNat = a.toNat % 2 := by
  have h : bitOutRight a = decide (a.toNat % 2 = 1) := by
    simp [bitOutRight, BitVec.getLsbD, Nat.testBit_zero]
  rw [h]
  rcases Nat.mod_two_eq_zero_or_one a.toNat with e | e <;> simp [flagByte, e]

theorem toNat_flagByte_bitOutLeft (a : Byte) : (flagByte (bitOutLeft a)).toNat = a.toNat / 128 := by
  have ha := a.isLt
  have h : bitOutLeft a = decide (a.toNat / 128 % 2 = 1) := by
    simp [bitOutLeft, BitVec.getLsbD, Nat.testBit_eq_decide_div_mod_eq]
  rw [h]
  have : a.toNat / 128 = 0 ∨ a.toNat / 128 = 1 := by omega
  rcases this with e | e <;> simp [flagByte, e]

end Sys2Proof.Machine
end

