-- ==== Sys2Proof/Laws/Exec.lean ====
section
/-! SUPPORT. What the shared operations answer, and the shape of every next state of exec and of step. -/

namespace Sys2Proof.Machine

/-! ### Completing and faulting -/

theorem complete_eq (t : State) (w : Word) : complete t w = .next { t with pc := w, status := some .ok } := rfl

theorem raiseFault_eq (r : FaultRecord) (s : State) : raiseFault r s = .next (enterFault r s) := rfl

@[simp] theorem mapNext_next (f : State → State) (t : State) : mapNext f (.next t) = .next (f t) := rfl

theorem mapNext_eq_next {f : State → State} {o : Host.Outcome State Fault Refusal} {u : State}
    (h : mapNext f o = .next u) : ∃ t, o = .next t ∧ u = f t := by
  cases o with
  | next t => exact ⟨t, rfl, by cases h; rfl⟩
  | fault r => cases h
  | refused r => cases h

theorem haltedStep_some {s : State} {r : FaultRecord} (h : s.fault = some r) :
    haltedStep s = .next { s with status := some (.fault r) } := by
  simp [haltedStep, h]

/-! ### Fetch -/

theorem fetch_ok {s : State} (h : s.pc.toNat + 1 < memSize) :
    fetch s = .ok (wordOfBytes (s.readByte s.pc.toNat) (s.readByte (s.pc.toNat + 1))) := by
  simp [fetch, h]

theorem fetch_error {s : State} (h : memSize ≤ s.pc.toNat + 1) : fetch s = .error (fetchRecord s.pc) := by
  have : ¬ s.pc.toNat + 1 < memSize := by omega
  simp [fetch, this]

/-- A word fetched was in memory. -/
theorem fetch_ok_bound {s : State} {op : Word} (h : fetch s = .ok op) : s.pc.toNat + 1 < memSize := by
  unfold fetch at h
  split at h
  · assumption
  · cases h

/-! ### Every next state of exec -/

/-- What an instruction that completes has: the run state, the record, the parameters and the driver's list as before,
memory canonical if it was, stack slots as before or the address after the instruction, and a PC of the kinds of
40_fetch_decode_execute.md R97. -/
structure Completed (s t : State) : Prop where
  runState : t.runState = s.runState
  fault : t.fault = s.fault
  cfg : t.cfg = s.cfg
  pending : t.pending = s.pending
  draws : t.draws = s.draws
  mem : Memory.wf s.cfg s.mem → Memory.wf s.cfg t.mem
  stack : ∀ k : Fin 16, t.stack[k] = s.stack[k] ∨ t.stack[k] = s.pc + 2
  pc : t.pc = s.pc ∨ t.pc = s.pc + 2 ∨ t.pc = s.pc + 4 ∨ t.pc.toNat ≤ 0x10FE ∨ ∃ k : Fin 16, t.pc = s.stack[k]

theorem toNat_zext12 (nnn : Addr12) : (zext12 nnn).toNat = nnn.toNat := by
  have := nnn.isLt
  simp only [zext12, BitVec.toNat_setWidth]
  omega

theorem toNat_zext8 (b : Byte) : (zext8 b).toNat = b.toNat := by
  have := b.isLt
  simp only [zext8, BitVec.toNat_setWidth]
  omega

theorem toNat_jumpSum (nnn : Addr12) (b : Byte) : (zext12 nnn + zext8 b).toNat = nnn.toNat + b.toNat := by
  have := nnn.isLt
  have := b.isLt
  rw [BitVec.toNat_add, toNat_zext12, toNat_zext8]
  omega

theorem State.skipTarget_cases (s : State) (c : Bool) : s.skipTarget c = s.pc + 2 ∨ s.skipTarget c = s.pc + 4 := by
  cases c <;> simp [State.skipTarget]

/-- Every instruction takes a next state: it completes, its status OK; or, of Fx0A alone, it waits with its status
AWAITING_INPUT and nothing else changed; or it raises a fault about itself. -/
theorem exec_cases (i : Instr) (s : State) :
    ∃ t, exec i s = .next t ∧
      ((Completed s t ∧ t.status = some .ok) ∨
       (t = { s with status := some .awaitingInput } ∧ ∃ x, i = .ldVxK x) ∨
       (∃ kind addr, t = enterFault (boundsRecord kind s i addr) s)) := by
  have wr : ∀ a bs t, s.memWrite a bs = .ok t →
      Completed s { t with pc := s.pcNext, status := some .ok } := fun a bs t h => by
    obtain ⟨rfl, hb⟩ := State.memWrite_cases h
    refine { runState := by simp, fault := by simp, cfg := by simp, pending := by simp, draws := by simp,
             mem := fun hm => ?_, stack := fun k => .inl (by simp), pc := .inr (.inl rfl) }
    rcases hb with rfl | hb
    · exact hm
    · exact State.wf_storeBytes hm hb
  have keep : ∀ t : State, ∀ w : Word, t.runState = s.runState → t.fault = s.fault → t.cfg = s.cfg →
      t.pending = s.pending → t.draws = s.draws → t.mem = s.mem → t.stack = s.stack →
      (w = s.pc + 2 ∨ w = s.pc + 4 ∨ w.toNat ≤ 0x10FE) →
      Completed s { t with pc := w, status := some .ok } :=
    fun t w h1 h2 h3 h4 h5 h6 h7 hw =>
      { runState := h1, fault := h2, cfg := h3, pending := h4, draws := h5, mem := fun hm => by simpa [h6] using hm,
        stack := fun k => .inl (by simp [h7]), pc := by tauto }
  have sk : ∀ c, s.skipTarget c = s.pc + 2 ∨ s.skipTarget c = s.pc + 4 ∨ (s.skipTarget c).toNat ≤ 0x10FE :=
    fun c => by rcases s.skipTarget_cases c with h | h <;> simp [h]
  cases i with
  | ret =>
    rcases Nat.eq_zero_or_pos s.sp.val with h | h
    · exact ⟨_, by simp only [exec, execRet, State.pop_none s h]; rfl, .inr (.inr ⟨_, _, rfl⟩)⟩
    · refine ⟨_, by simp only [exec, execRet, State.pop_some s h]; rfl, .inl ⟨?_, rfl⟩⟩
      exact { runState := rfl, fault := rfl, cfg := rfl, pending := rfl, draws := rfl, mem := id,
              stack := fun k => .inl rfl,
              pc := .inr (.inr (.inr (.inr ⟨⟨s.sp.val - 1, by omega⟩, rfl⟩))) }
  | callNnn nnn =>
    have hs := s.sp.isLt
    by_cases h : s.sp.val < 16
    · refine ⟨_, by simp only [exec, execCallNnn, State.push_some s _ h]; rfl, .inl ⟨?_, rfl⟩⟩
      refine { runState := rfl, fault := rfl, cfg := rfl, pending := rfl, draws := rfl, mem := id,
               stack := fun k => ?_, pc := .inr (.inr (.inr (.inl ?_))) }
      · by_cases hk : s.sp.val = k.val
        · right; simp [hk, State.pcNext]
        · left; simp [hk]
      · have := nnn.isLt
        simp only [toNat_zext12]
        omega
    · exact ⟨_, by simp only [exec, execCallNnn, State.push_none s _ (by omega)]; rfl, .inr (.inr ⟨_, _, rfl⟩)⟩
  | drwVxVyN x y n =>
    simp only [exec, execDrwVxVyN]
    cases s.memRead (s.dataAddr 0) n.toNat with
    | ok rows => exact ⟨_, rfl, .inl ⟨keep _ _ rfl rfl rfl rfl rfl rfl rfl (.inl rfl), rfl⟩⟩
    | error a => exact ⟨_, rfl, .inr (.inr ⟨_, _, rfl⟩)⟩
  | ldVxMi x =>
    simp only [exec, execLdVxMi]
    cases s.memRead (s.dataAddr 0) (x.toNat + 1) with
    | ok bytes =>
      exact ⟨_, rfl, .inl ⟨keep _ _ (by simp) (by simp) (by simp) (by simp) (by simp) (by simp) (by simp) (.inl rfl), rfl⟩⟩
    | error a => exact ⟨_, rfl, .inr (.inr ⟨_, _, rfl⟩)⟩
  | ldBVx x =>
    simp only [exec, execLdBVx]
    cases h : s.memWrite (s.dataAddr 0) (bcdDigits (s.readV x)) with
    | ok t => exact ⟨_, rfl, .inl ⟨wr _ _ _ h, rfl⟩⟩
    | error a => exact ⟨_, rfl, .inr (.inr ⟨_, _, rfl⟩)⟩
  | ldMiVx x =>
    simp only [exec, execLdMiVx]
    cases h : s.memWrite (s.dataAddr 0) (s.regsUpTo x) with
    | ok t => exact ⟨_, rfl, .inl ⟨wr _ _ _ h, rfl⟩⟩
    | error a => exact ⟨_, rfl, .inr (.inr ⟨_, _, rfl⟩)⟩
  | ldVxK x =>
    refine ⟨_, rfl, ?_⟩
    cases s.answers.keyEvent with
    | none => exact .inr (.inl ⟨rfl, x, rfl⟩)
    | some e => exact .inl ⟨keep _ _ rfl rfl rfl rfl rfl rfl rfl (.inl rfl), rfl⟩
  | jpNnn nnn =>
    refine ⟨_, rfl, .inl ⟨keep _ _ rfl rfl rfl rfl rfl rfl rfl (.inr (.inr ?_)), rfl⟩⟩
    have := nnn.isLt
    rw [toNat_zext12]
    omega
  | jpV0Nnn nnn =>
    refine ⟨_, rfl, .inl ⟨keep _ _ rfl rfl rfl rfl rfl rfl rfl (.inr (.inr ?_)), rfl⟩⟩
    have := nnn.isLt
    have := (s.readV 0x0).isLt
    rw [toNat_jumpSum]
    omega
  | seVxNn x nn => exact ⟨_, rfl, .inl ⟨keep _ _ rfl rfl rfl rfl rfl rfl rfl (sk _), rfl⟩⟩
  | sneVxNn x nn => exact ⟨_, rfl, .inl ⟨keep _ _ rfl rfl rfl rfl rfl rfl rfl (sk _), rfl⟩⟩
  | seVxVy x y => exact ⟨_, rfl, .inl ⟨keep _ _ rfl rfl rfl rfl rfl rfl rfl (sk _), rfl⟩⟩
  | sneVxVy x y => exact ⟨_, rfl, .inl ⟨keep _ _ rfl rfl rfl rfl rfl rfl rfl (sk _), rfl⟩⟩
  | skpVx x => exact ⟨_, rfl, .inl ⟨keep _ _ rfl rfl rfl rfl rfl rfl rfl (sk _), rfl⟩⟩
  | sknpVx x => exact ⟨_, rfl, .inl ⟨keep _ _ rfl rfl rfl rfl rfl rfl rfl (sk _), rfl⟩⟩
  | cls => exact ⟨_, rfl, .inl ⟨keep _ _ rfl rfl rfl rfl rfl rfl rfl (.inl rfl), rfl⟩⟩
  | ldVxNn x nn => exact ⟨_, rfl, .inl ⟨keep _ _ rfl rfl rfl rfl rfl rfl rfl (.inl rfl), rfl⟩⟩
  | addVxNn x nn => exact ⟨_, rfl, .inl ⟨keep _ _ rfl rfl rfl rfl rfl rfl rfl (.inl rfl), rfl⟩⟩
  | ldVxVy x y => exact ⟨_, rfl, .inl ⟨keep _ _ rfl rfl rfl rfl rfl rfl rfl (.inl rfl), rfl⟩⟩
  | orVxVy x y => exact ⟨_, rfl, .inl ⟨keep _ _ rfl rfl rfl rfl rfl rfl rfl (.inl rfl), rfl⟩⟩
  | andVxVy x y => exact ⟨_, rfl, .inl ⟨keep _ _ rfl rfl rfl rfl rfl rfl rfl (.inl rfl), rfl⟩⟩
  | xorVxVy x y => exact ⟨_, rfl, .inl ⟨keep _ _ rfl rfl rfl rfl rfl rfl rfl (.inl rfl), rfl⟩⟩
  | addVxVy x y => exact ⟨_, rfl, .inl ⟨keep _ _ rfl rfl rfl rfl rfl rfl rfl (.inl rfl), rfl⟩⟩
  | subVxVy x y => exact ⟨_, rfl, .inl ⟨keep _ _ rfl rfl rfl rfl rfl rfl rfl (.inl rfl), rfl⟩⟩
  | shrVxVy x y => exact ⟨_, rfl, .inl ⟨keep _ _ rfl rfl rfl rfl rfl rfl rfl (.inl rfl), rfl⟩⟩
  | subnVxVy x y => exact ⟨_, rfl, .inl ⟨keep _ _ rfl rfl rfl rfl rfl rfl rfl (.inl rfl), rfl⟩⟩
  | shlVxVy x y => exact ⟨_, rfl, .inl ⟨keep _ _ rfl rfl rfl rfl rfl rfl rfl (.inl rfl), rfl⟩⟩
  | ldINnn nnn => exact ⟨_, rfl, .inl ⟨keep _ _ rfl rfl rfl rfl rfl rfl rfl (.inl rfl), rfl⟩⟩
  | rndVxNn x nn => exact ⟨_, rfl, .inl ⟨keep _ _ rfl rfl rfl rfl rfl rfl rfl (.inl rfl), rfl⟩⟩
  | ldVxDt x => exact ⟨_, rfl, .inl ⟨keep _ _ rfl rfl rfl rfl rfl rfl rfl (.inl rfl), rfl⟩⟩
  | ldDtVx x => exact ⟨_, rfl, .inl ⟨keep _ _ rfl rfl rfl rfl rfl rfl rfl (.inl rfl), rfl⟩⟩
  | ldStVx x => exact ⟨_, rfl, .inl ⟨keep _ _ rfl rfl rfl rfl rfl rfl rfl (.inl rfl), rfl⟩⟩
  | addIVx x => exact ⟨_, rfl, .inl ⟨keep _ _ rfl rfl rfl rfl rfl rfl rfl (.inl rfl), rfl⟩⟩
  | ldFVx x => exact ⟨_, rfl, .inl ⟨keep _ _ rfl rfl rfl rfl rfl rfl rfl (.inl rfl), rfl⟩⟩

end Sys2Proof.Machine
end

