-- ==== Sys2Proof/Laws/PerInstr.lean ====
section
/-! SUPPORT. A law of every instruction: its word is accepted by the opcode table's row of its own mnemonic. -/

namespace Sys2Proof

/-- A row of the table accepts a word. -/
theorem accepted_by {name : String} {value mask w : Word} (h : (⟨name, value, mask⟩ : OpcodeRow) ∈ opcodeTable)
    (hw : w &&& mask = value) : ∃ row ∈ opcodeTable, row.mnemonic = name ∧ row.accepts w = true :=
  ⟨_, h, rfl, by simp [OpcodeRow.accepts, hw]⟩

namespace Laws.Encoding

/-- The instruction's word is its row's in the opcode table (spec/opcode_table.json). -/
def Statement (i : Instr) : Prop := ∃ row ∈ opcodeTable, row.mnemonic = i.mnemonic ∧ row.accepts (encode i) = true

theorem cls : Statement .cls :=
  accepted_by (name := "CLS") (value := 0x00E0) (mask := 0xFFFF) (by decide) rfl

theorem ret : Statement .ret :=
  accepted_by (name := "RET") (value := 0x00EE) (mask := 0xFFFF) (by decide) rfl

theorem jpNnn (nnn : Addr12) : Statement (.jpNnn nnn) :=
  accepted_by (name := "JP_NNN") (value := 0x1000) (mask := 0xF000) (by decide) (formNnn_and 0x1 nnn)

theorem callNnn (nnn : Addr12) : Statement (.callNnn nnn) :=
  accepted_by (name := "CALL_NNN") (value := 0x2000) (mask := 0xF000) (by decide) (formNnn_and 0x2 nnn)

theorem seVxNn (x : Nibble) (nn : Byte) : Statement (.seVxNn x nn) :=
  accepted_by (name := "SE_VX_NN") (value := 0x3000) (mask := 0xF000) (by decide) (formXnn_and_family 0x3 x nn)

theorem sneVxNn (x : Nibble) (nn : Byte) : Statement (.sneVxNn x nn) :=
  accepted_by (name := "SNE_VX_NN") (value := 0x4000) (mask := 0xF000) (by decide) (formXnn_and_family 0x4 x nn)

theorem seVxVy (x y : Nibble) : Statement (.seVxVy x y) :=
  accepted_by (name := "SE_VX_VY") (value := 0x5000) (mask := 0xF00F) (by decide) (formXyn_and 0x5 x y 0x0)

theorem ldVxNn (x : Nibble) (nn : Byte) : Statement (.ldVxNn x nn) :=
  accepted_by (name := "LD_VX_NN") (value := 0x6000) (mask := 0xF000) (by decide) (formXnn_and_family 0x6 x nn)

theorem addVxNn (x : Nibble) (nn : Byte) : Statement (.addVxNn x nn) :=
  accepted_by (name := "ADD_VX_NN") (value := 0x7000) (mask := 0xF000) (by decide) (formXnn_and_family 0x7 x nn)

theorem ldVxVy (x y : Nibble) : Statement (.ldVxVy x y) :=
  accepted_by (name := "LD_VX_VY") (value := 0x8000) (mask := 0xF00F) (by decide) (formXyn_and 0x8 x y 0x0)

theorem orVxVy (x y : Nibble) : Statement (.orVxVy x y) :=
  accepted_by (name := "OR_VX_VY") (value := 0x8001) (mask := 0xF00F) (by decide) (formXyn_and 0x8 x y 0x1)

theorem andVxVy (x y : Nibble) : Statement (.andVxVy x y) :=
  accepted_by (name := "AND_VX_VY") (value := 0x8002) (mask := 0xF00F) (by decide) (formXyn_and 0x8 x y 0x2)

theorem xorVxVy (x y : Nibble) : Statement (.xorVxVy x y) :=
  accepted_by (name := "XOR_VX_VY") (value := 0x8003) (mask := 0xF00F) (by decide) (formXyn_and 0x8 x y 0x3)

theorem addVxVy (x y : Nibble) : Statement (.addVxVy x y) :=
  accepted_by (name := "ADD_VX_VY") (value := 0x8004) (mask := 0xF00F) (by decide) (formXyn_and 0x8 x y 0x4)

theorem subVxVy (x y : Nibble) : Statement (.subVxVy x y) :=
  accepted_by (name := "SUB_VX_VY") (value := 0x8005) (mask := 0xF00F) (by decide) (formXyn_and 0x8 x y 0x5)

theorem shrVxVy (x y : Nibble) : Statement (.shrVxVy x y) :=
  accepted_by (name := "SHR_VX_VY") (value := 0x8006) (mask := 0xF00F) (by decide) (formXyn_and 0x8 x y 0x6)

theorem subnVxVy (x y : Nibble) : Statement (.subnVxVy x y) :=
  accepted_by (name := "SUBN_VX_VY") (value := 0x8007) (mask := 0xF00F) (by decide) (formXyn_and 0x8 x y 0x7)

theorem shlVxVy (x y : Nibble) : Statement (.shlVxVy x y) :=
  accepted_by (name := "SHL_VX_VY") (value := 0x800E) (mask := 0xF00F) (by decide) (formXyn_and 0x8 x y 0xE)

theorem sneVxVy (x y : Nibble) : Statement (.sneVxVy x y) :=
  accepted_by (name := "SNE_VX_VY") (value := 0x9000) (mask := 0xF00F) (by decide) (formXyn_and 0x9 x y 0x0)

theorem ldINnn (nnn : Addr12) : Statement (.ldINnn nnn) :=
  accepted_by (name := "LD_I_NNN") (value := 0xA000) (mask := 0xF000) (by decide) (formNnn_and 0xA nnn)

theorem jpV0Nnn (nnn : Addr12) : Statement (.jpV0Nnn nnn) :=
  accepted_by (name := "JP_V0_NNN") (value := 0xB000) (mask := 0xF000) (by decide) (formNnn_and 0xB nnn)

theorem rndVxNn (x : Nibble) (nn : Byte) : Statement (.rndVxNn x nn) :=
  accepted_by (name := "RND_VX_NN") (value := 0xC000) (mask := 0xF000) (by decide) (formXnn_and_family 0xC x nn)

theorem drwVxVyN (x y n : Nibble) : Statement (.drwVxVyN x y n) :=
  accepted_by (name := "DRW_VX_VY_N") (value := 0xD000) (mask := 0xF000) (by decide) (formXyn_and_family 0xD x y n)

theorem skpVx (x : Nibble) : Statement (.skpVx x) :=
  accepted_by (name := "SKP_VX") (value := 0xE09E) (mask := 0xF0FF) (by decide) (formXnn_and 0xE x 0x9E)

theorem sknpVx (x : Nibble) : Statement (.sknpVx x) :=
  accepted_by (name := "SKNP_VX") (value := 0xE0A1) (mask := 0xF0FF) (by decide) (formXnn_and 0xE x 0xA1)

theorem ldVxDt (x : Nibble) : Statement (.ldVxDt x) :=
  accepted_by (name := "LD_VX_DT") (value := 0xF007) (mask := 0xF0FF) (by decide) (formXnn_and 0xF x 0x07)

theorem ldVxK (x : Nibble) : Statement (.ldVxK x) :=
  accepted_by (name := "LD_VX_K") (value := 0xF00A) (mask := 0xF0FF) (by decide) (formXnn_and 0xF x 0x0A)

theorem ldDtVx (x : Nibble) : Statement (.ldDtVx x) :=
  accepted_by (name := "LD_DT_VX") (value := 0xF015) (mask := 0xF0FF) (by decide) (formXnn_and 0xF x 0x15)

theorem ldStVx (x : Nibble) : Statement (.ldStVx x) :=
  accepted_by (name := "LD_ST_VX") (value := 0xF018) (mask := 0xF0FF) (by decide) (formXnn_and 0xF x 0x18)

theorem addIVx (x : Nibble) : Statement (.addIVx x) :=
  accepted_by (name := "ADD_I_VX") (value := 0xF01E) (mask := 0xF0FF) (by decide) (formXnn_and 0xF x 0x1E)

theorem ldFVx (x : Nibble) : Statement (.ldFVx x) :=
  accepted_by (name := "LD_F_VX") (value := 0xF029) (mask := 0xF0FF) (by decide) (formXnn_and 0xF x 0x29)

theorem ldBVx (x : Nibble) : Statement (.ldBVx x) :=
  accepted_by (name := "LD_B_VX") (value := 0xF033) (mask := 0xF0FF) (by decide) (formXnn_and 0xF x 0x33)

theorem ldMiVx (x : Nibble) : Statement (.ldMiVx x) :=
  accepted_by (name := "LD_MI_VX") (value := 0xF055) (mask := 0xF0FF) (by decide) (formXnn_and 0xF x 0x55)

theorem ldVxMi (x : Nibble) : Statement (.ldVxMi x) :=
  accepted_by (name := "LD_VX_MI") (value := 0xF065) (mask := 0xF0FF) (by decide) (formXnn_and 0xF x 0x65)

end Laws.Encoding

end Sys2Proof
end

