-- ==== Sys2Proof/Laws/Step.lean ====
section
/-! SUPPORT. What one operation of the driver can do: an equation for each operation, and the two ends of a STEP that runs
from RUNNING. -/

namespace Sys2Proof.Machine

/-! ### Which operation is next -/

@[simp] theorem State.nextOp_cons {s : State} {op : DriverOp} {ops : List DriverOp} (h : s.pending = op :: ops) :
    s.nextOp = op := by
  simp [State.nextOp, h]

theorem DriverOp.isStep_iff {op : DriverOp} : op.isStep = true ↔ ∃ e, op = .step e := by
  cases op <;> simp [DriverOp.isStep]

theorem State.answers_of_step {s : State} {e : Env} (h : s.nextOp = .step e) : s.answers = e := by
  simp [State.answers, h]

/-- A word placed for the next STEP finds a STEP next. -/
theorem State.stepFirst_ne_nil (s : State) : s.stepFirst ≠ [] := by
  unfold State.stepFirst
  split
  · simp
  · assumption

/-! ### What step answers -/

theorem step_reset {s : State} (h : s.nextOp = .reset) : step s = .next (retireOp (performReset s)) := by
  simp [step, h]

theorem step_load {s : State} {bytes : List Byte} (h : s.nextOp = .load bytes) :
    step s = .next (retireOp (performLoad bytes s)) := by
  simp [step, h]

theorem step_tick {s : State} (h : s.nextOp = .tick) : step s = .next (retireOp (performTick s)) := by
  simp [step, h]

theorem step_step {s : State} (h : s.nextOp.isStep = true) : step s = mapNext retireOp (runInstr s) := by
  obtain ⟨e, he⟩ := DriverOp.isStep_iff.1 h
  simp [step, he]

/-- A STEP of a running core either enters a fault about PC or executes the instruction there. -/
theorem runInstr_cases (s : State) (hr : s.runState = .running) :
    (∃ r : FaultRecord, r.pc = s.pc ∧ runInstr s = .next (enterFault r s)) ∨
    (∃ i, s.instrAtPc = some i ∧ runInstr s = exec i s ∧ s.pc.toNat + 1 < memSize) := by
  unfold runInstr State.instrAtPc
  rw [hr]
  cases hf : fetch s with
  | error r =>
    refine .inl ⟨r, ?_, rfl⟩
    unfold fetch at hf
    split at hf <;> cases hf
    rfl
  | ok op =>
    cases hd : decode op with
    | error e => exact .inl ⟨decodeRecord s.pc op, rfl, by simp [hd, raiseFault]⟩
    | ok i => exact .inr ⟨i, by simp [hd], by simp [hd], fetch_ok_bound hf⟩

/-- With an instruction at PC the core runs, and the STEP executes it. -/
theorem runInstr_of_instrAtPc {s : State} {i : Instr} (h : s.instrAtPc = some i) :
    s.runState = .running ∧ runInstr s = exec i s := by
  unfold State.instrAtPc at h
  unfold runInstr
  cases hr : s.runState with
  | halted => simp [hr] at h
  | running =>
    rw [hr] at h
    cases hf : fetch s with
    | error r => simp [hf] at h
    | ok op =>
      simp only [hf] at h
      cases hd : decode op with
      | error e => simp [hd] at h
      | ok j =>
        simp only [hd, Option.some.injEq] at h
        simp [hd, h]

/-- A STEP in HALTED changes the status alone. -/
theorem runInstr_halted {s t : State} (hr : s.runState = .halted) (h : runInstr s = .next t) :
    ∃ r, s.fault = some r ∧ t = { s with status := some (.fault r) } := by
  unfold runInstr haltedStep at h
  rw [hr] at h
  cases hf : s.fault with
  | none => simp [hf] at h
  | some r =>
    simp only [hf] at h
    cases h
    exact ⟨r, rfl, by rw [hr]⟩

end Sys2Proof.Machine
end

