-- ==== Sys2Proof/Tests/Slice0.lean ====
section
/-! SUPPORT. Tests whose expected values stand in spec/95_test_vectors.md (its vector is named in each docstring), words
written out from the encodings of 30_encoding.md, ill-formed terms that the checks refuse, and for every statement with
hypotheses a witness that meets them all. -/

namespace Sys2Proof.Tests

open Sys2Proof Sys2Proof.Machine

/-! ### Helpers -/

/-- No key down, no event, zero, no collision. -/
def quiet : Env := { keysDown := 0, keyEvent := none, random := 0, collided := false }

/-- The reset state with some registers changed. -/
def withRegs (regs : List (Nibble × Byte)) : State := regs.foldl (fun s r => s.writeV r.1 r.2) State.reset

/-- The state as the vectors have it before a STEP: answers queued and the word at PC. -/
def before (s : State) (w : Nat) (e : Env := quiet) : State :=
  State.withFetchWord { s with pending := [.step e] } 16 w

/-- The reset state with one operation queued. -/
def queued (op : DriverOp) : State := { State.reset with pending := [op] }

/-- The next state, if the step takes one. -/
def after (s : State) : Option State :=
  match step s with
  | .next t => some t
  | .fault _ | .refused _ => none

/-- Some registers and PC after a STEP. -/
def regsAfter (s : State) (rs : List Nibble) : Option (List Byte × Word) :=
  (after s).map fun t => (rs.map t.readV, t.pc)

/-- PC after a STEP. -/
def pcAfter (s : State) : Option Word := (after s).map State.pc

/-- Some bytes of memory, and I, after a STEP. -/
def memAfter (s : State) (as : List Nat) : Option (List Byte × Word) :=
  (after s).map fun t => (as.map t.readByte, t.i)

/-- What a fault leaves: the record, the run state, PC, memory and registers. -/
def faultAfter (s : State) : Option (Option FaultRecord × RunState × Word × Bool) :=
  (after s).map fun t => (t.fault, t.runState, t.pc, decide (t.mem = s.mem ∧ t.v = s.v ∧ t.requests = s.requests))

/-- A record with an opcode, as the vectors write it. -/
def record (kind : FaultKind) (pc op : Word) (addr : Option Nat) : FaultRecord :=
  { kind := kind, pc := pc, opcode := some op, addr := addr }

/-! ### Decoding: a word for every constructor, bit by bit from 30_encoding.md R71 to R79 -/

theorem test_decode_control :
    decode 0b0000000011100000#16 = .ok .cls ∧ decode 0b0000000011101110#16 = .ok .ret ∧
    decode 0b0001001000110100#16 = .ok (.jpNnn 0x234) ∧ decode 0b0010001000001000#16 = .ok (.callNnn 0x208) ∧
    decode 0b1011001110100000#16 = .ok (.jpV0Nnn 0x3A0) := by decide

theorem test_decode_skips :
    decode 0b0011101000000110#16 = .ok (.seVxNn 0xA 0x06) ∧ decode 0b0100101000000110#16 = .ok (.sneVxNn 0xA 0x06) ∧
    decode 0b0101000100100000#16 = .ok (.seVxVy 0x1 0x2) ∧ decode 0b1001000100100000#16 = .ok (.sneVxVy 0x1 0x2) ∧
    decode 0b1110010110011110#16 = .ok (.skpVx 0x5) ∧ decode 0b1110010110100001#16 = .ok (.sknpVx 0x5) := by decide

theorem test_decode_immediate :
    decode 0b0110101001000010#16 = .ok (.ldVxNn 0xA 0x42) ∧ decode 0b0111001100000010#16 = .ok (.addVxNn 0x3 0x02) ∧
    decode 0b1010001100000000#16 = .ok (.ldINnn 0x300) ∧ decode 0b1100001100001111#16 = .ok (.rndVxNn 0x3 0x0F) ∧
    decode 0b1101101010110101#16 = .ok (.drwVxVyN 0xA 0xB 0x5) := by decide

theorem test_decode_alu :
    decode 0b1000101010110000#16 = .ok (.ldVxVy 0xA 0xB) ∧ decode 0b1000101010110001#16 = .ok (.orVxVy 0xA 0xB) ∧
    decode 0b1000101010110010#16 = .ok (.andVxVy 0xA 0xB) ∧ decode 0b1000101010110011#16 = .ok (.xorVxVy 0xA 0xB) ∧
    decode 0b1000101010110100#16 = .ok (.addVxVy 0xA 0xB) ∧ decode 0b1000101010110101#16 = .ok (.subVxVy 0xA 0xB) ∧
    decode 0b1000101010110110#16 = .ok (.shrVxVy 0xA 0xB) ∧ decode 0b1000101010110111#16 = .ok (.subnVxVy 0xA 0xB) ∧
    decode 0b1000101010111110#16 = .ok (.shlVxVy 0xA 0xB) := by decide

theorem test_decode_familyF :
    decode 0b1111010000000111#16 = .ok (.ldVxDt 0x4) ∧ decode 0b1111010000001010#16 = .ok (.ldVxK 0x4) ∧
    decode 0b1111010000010101#16 = .ok (.ldDtVx 0x4) ∧ decode 0b1111010000011000#16 = .ok (.ldStVx 0x4) ∧
    decode 0b1111010000011110#16 = .ok (.addIVx 0x4) ∧ decode 0b1111010000101001#16 = .ok (.ldFVx 0x4) ∧
    decode 0b1111010000110011#16 = .ok (.ldBVx 0x4) ∧ decode 0b1111010001010101#16 = .ok (.ldMiVx 0x4) ∧
    decode 0b1111010001100101#16 = .ok (.ldVxMi 0x4) := by decide

/-- 30_encoding.md R75 to R80: one illegal word of each family, rejected by name. -/
theorem test_decode_rejects :
    decode 0x0123 = .error (.family0 0x0123) ∧ decode 0x5121 = .error (.family5 0x5121) ∧
    decode 0x8AB8 = .error (.family8 0x8AB8) ∧ decode 0x9128 = .error (.family9 0x9128) ∧
    decode 0xE5A2 = .error (.familyE 0xE5A2) ∧ decode 0xF0FF = .error (.familyF 0xF0FF) ∧
    decodeBytes [0x60] = .error .truncated := by decide

/-- The high byte comes first, and the rest is given back (30_encoding.md R70). -/
theorem test_decodeBytes_bigEndian : decodeBytes [0x6A, 0x42, 0x12] = .ok (.ldVxNn 0xA 0x42, [0x12]) := by decide

theorem test_decodeTableWord :
    decodeTableWord 16 0x6A42 = some (.ldVxNn 0xA 0x42) ∧ decodeTableWord 16 0x5121 = none := by decide

/-- Lines of the programs P1, P2, P3 and P7 of Part 3. -/
theorem test_assembly :
    Instr.assembly (.ldVxNn 0xA 0xFF) = "LD VA, FF" ∧ Instr.assembly (.callNnn 0x20C) = "CALL 20C" ∧
    Instr.assembly (.ldMiVx 0x1) = "LD [I], V1" ∧ Instr.assembly (.drwVxVyN 0x0 0x0 0x5) = "DRW V0, V0, 5" := by decide

/-- No word is the instruction of two rows: any two rows differ in a bit that both masks fix. -/
theorem test_rows_disjoint :
    opcodeTable.Pairwise fun a b => a.value &&& (a.mask &&& b.mask) ≠ b.value &&& (a.mask &&& b.mask) := by decide

/-! ### Checks refuse ill-formed terms -/

/-- The types of `Instr` hold every operand to its width, so no ill-formed instruction can be written
(`wellFormed_all`); an illegal word is refused, next to a legal one. -/
theorem test_legalWord :
    legalWord 0x00E1 = false ∧ legalWord 0x5121 = false ∧ legalWord 0x8AB8 = false ∧ legalWord 0x912F = false ∧
    legalWord 0xE59F = false ∧ legalWord 0xF056 = false ∧ legalWord 0xF055 = true := by decide

/-- A font that would reach into the program region is refused (10_state.md R33): 0x1B0 is the last base that fits. -/
theorem test_config_wellFormed :
    Config.default.wellFormed = true ∧ { Config.default with fontBase := 0x1B0 }.wellFormed = true ∧
    { Config.default with fontBase := 0x1B1 }.wellFormed = false := by decide

theorem test_memory_wf :
    Memory.wf Config.default [(0x200, 0x12), (0x201, 0x34)] ∧
    ¬ Memory.wf Config.default [(0x201, 0x12), (0x200, 0x34)] ∧
    ¬ Memory.wf Config.default [(0x200, 0x12), (0x200, 0x34)] ∧
    ¬ Memory.wf Config.default [(0x1000, 0x12)] ∧
    ¬ Memory.wf Config.default [(0x200, 0x00)] ∧
    ¬ Memory.wf Config.default [(0x050, 0xF0)] := by decide

/-- Writing what reset left at an address takes the entry away again. -/
theorem test_memory_write_canonical :
    Memory.write Config.default (Memory.write Config.default [] 0x050 0x12) 0x050 0xF0 = [] ∧
    Memory.write Config.default [(0x300, 1)] 0x2FF 2 = [(0x2FF, 2), (0x300, 1)] := by decide

/-! ### Arithmetic and logic -/

/-- S1 of Part 1. -/
theorem test_ldVxNn : regsAfter (before State.reset 0x6F3C) [0xF] = some ([0x3C], 0x202) := by decide

/-- S2: the sum wraps and VF stays. -/
theorem test_addVxNn :
    regsAfter (before (withRegs [(3, 0xFF), (0xF, 0x5A)]) 0x7302) [3, 0xF] = some ([0x01, 0x5A], 0x202) := by decide

/-- AL5: VF as an ordinary register. -/
theorem test_addVxNn_VF : regsAfter (before (withRegs [(0xF, 0xFF)]) 0x7F01) [0xF] = some ([0x00], 0x202) := by decide

/-- AL6. -/
theorem test_ldVxVy :
    regsAfter (before (withRegs [(0xB, 0x7C)]) 0x8AB0) [0xA, 0xB] = some ([0x7C, 0x7C], 0x202) := by decide

/-- AL9: OR sets no flag. -/
theorem test_orVxVy :
    regsAfter (before (withRegs [(0xF, 0x0F), (1, 0xF0)]) 0x8F11) [0xF, 1] = some ([0xFF, 0xF0], 0x202) := by decide

/-- AL8. -/
theorem test_andVxVy :
    regsAfter (before (withRegs [(0xA, 0xF0), (0xB, 0x3C)]) 0x8AB2) [0xA] = some ([0x30], 0x202) := by decide

/-- AL11. -/
theorem test_xorVxVy :
    regsAfter (before (withRegs [(0xA, 0xF0), (0xB, 0x3C)]) 0x8AB3) [0xA] = some ([0xCC], 0x202) := by decide

/-- AL15: the carry wins over the sum. -/
theorem test_addVxVy_VF_dest :
    regsAfter (before (withRegs [(0xF, 0xFF), (1, 0x01)]) 0x8F14) [0xF] = some ([0x01], 0x202) := by decide

/-- AL16: the old VF is the addend. -/
theorem test_addVxVy_VF_source :
    regsAfter (before (withRegs [(1, 0x05), (0xF, 0xFF)]) 0x81F4) [1, 0xF] = some ([0x04, 0x01], 0x202) := by decide

/-- S6: borrow. -/
theorem test_subVxVy_borrow :
    regsAfter (before (withRegs [(1, 0x03), (2, 0x05)]) 0x8125) [1, 0xF] = some ([0xFE, 0x00], 0x202) := by decide

/-- AL17: equality is no borrow. -/
theorem test_subVxVy_equal :
    regsAfter (before (withRegs [(0xA, 0x42), (0xB, 0x42)]) 0x8AB5) [0xA, 0xF] = some ([0x00, 0x01], 0x202) := by decide

/-- AL20: VB is not read. -/
theorem test_shrVxVy :
    regsAfter (before (withRegs [(0xA, 0x05), (0xB, 0x77)]) 0x8AB6) [0xA, 0xF] = some ([0x02, 0x01], 0x202) := by decide

/-- AL22: the bit shifted out of VF wins. -/
theorem test_shrVxVy_VF : regsAfter (before (withRegs [(0xF, 0x03)]) 0x8F06) [0xF] = some ([0x01], 0x202) := by decide

/-- AL23. -/
theorem test_subnVxVy :
    regsAfter (before (withRegs [(0xA, 0x03), (0xB, 0x05)]) 0x8AB7) [0xA, 0xF] = some ([0x02, 0x01], 0x202) := by decide

/-- AL24: borrow. -/
theorem test_subnVxVy_borrow :
    regsAfter (before (withRegs [(0xA, 0x02), (0xB, 0x01)]) 0x8AB7) [0xA, 0xF] = some ([0xFF, 0x00], 0x202) := by decide

/-- AL25. -/
theorem test_shlVxVy :
    regsAfter (before (withRegs [(0xA, 0x81)]) 0x8A0E) [0xA, 0xF] = some ([0x02, 0x01], 0x202) := by decide

/-- AL26: the bit shifted out of VF wins. -/
theorem test_shlVxVy_VF : regsAfter (before (withRegs [(0xF, 0x7F)]) 0x8FFE) [0xF] = some ([0x00], 0x202) := by decide

/-- AL30. -/
theorem test_rndVxNn :
    regsAfter (before State.reset 0xC30F { quiet with random := 0xA7 }) [3] = some ([0x07], 0x202) := by decide

/-! ### Control flow -/

/-- CF1 and CF2. -/
theorem test_seVxNn :
    pcAfter (before (withRegs [(0, 0x06)]) 0x3006) = some 0x204 ∧
    pcAfter (before (withRegs [(0, 0x07)]) 0x3006) = some 0x202 := by decide

/-- CF13: a skip past the last word of memory. -/
theorem test_seVxNn_atEnd : pcAfter (before { State.reset with pc := 0xFFC } 0x3000) = some 0x1000 := by decide

/-- CF3 and CF4. -/
theorem test_sneVxNn :
    pcAfter (before (withRegs [(0, 0x07)]) 0x4006) = some 0x204 ∧
    pcAfter (before (withRegs [(0, 0x06)]) 0x4006) = some 0x202 := by decide

/-- CF5 and CF6. -/
theorem test_seVxVy :
    pcAfter (before (withRegs [(1, 0x10), (2, 0x10)]) 0x5120) = some 0x204 ∧
    pcAfter (before (withRegs [(1, 0x10), (2, 0x11)]) 0x5120) = some 0x202 := by decide

/-- CF9 and CF10. -/
theorem test_sneVxVy :
    pcAfter (before (withRegs [(1, 0x10), (2, 0x11)]) 0x9120) = some 0x204 ∧
    pcAfter (before (withRegs [(1, 0x10), (2, 0x10)]) 0x9120) = some 0x202 := by decide

/-- CF14 and CF17: an odd target is allowed. -/
theorem test_jpNnn :
    pcAfter (before State.reset 0x1234) = some 0x234 ∧ pcAfter (before State.reset 0x1201) = some 0x201 := by decide

/-- CF19: the largest sum. -/
theorem test_jpV0Nnn : pcAfter (before (withRegs [(0, 0xFF)]) 0xBFFF) = some 0x10FE := by decide

/-- CF20: V0, not V3, is added. -/
theorem test_jpV0Nnn_usesV0 : pcAfter (before (withRegs [(3, 0x40)]) 0xB3A0) = some 0x3A0 := by decide

/-- CF21. -/
theorem test_callNnn :
    (after (before { State.reset with pc := 0x202 } 0x2208)).map (fun t => (t.stack[0], t.sp, t.pc)) =
      some (0x204, 1, 0x208) := by decide

/-- CF22. -/
theorem test_callNnn_overflow :
    faultAfter (before { State.reset with sp := 16 } 0x2208) =
      some (some (record .stackOverflow 0x200 0x2208 none), .halted, 0x200, true) := by decide

/-- CF23: the slot keeps its value. -/
theorem test_ret :
    (after (before { State.reset with sp := 1, stack := State.reset.stack.set 0 0x204 } 0x00EE)).map
      (fun t => (t.stack[0], t.sp, t.pc)) = some (0x204, 0, 0x204) := by decide

/-- CF24. -/
theorem test_ret_underflow :
    faultAfter (before State.reset 0x00EE) =
      some (some (record .stackUnderflow 0x200 0x00EE none), .halted, 0x200, true) := by decide

/-! ### Index, memory and sprite -/

/-- MI1. -/
theorem test_ldINnn : memAfter (before State.reset 0xA300) [] = some ([], 0x300) := by decide

/-- MI3. -/
theorem test_addIVx : memAfter (before { withRegs [(1, 0x05)] with i := 0x300 } 0xF11E) [] = some ([], 0x305) := by decide

/-- MI5: a 16-bit wrap. -/
theorem test_addIVx_wrap :
    memAfter (before { withRegs [(1, 0x01)] with i := 0xFFFF } 0xF11E) [] = some ([], 0x0000) := by decide

/-- MI6. -/
theorem test_ldFVx : memAfter (before (withRegs [(2, 0x03)]) 0xF229) [] = some ([], 0x05F) := by decide

/-- MI8: the high nibble is ignored. -/
theorem test_ldFVx_lowNibble : memAfter (before (withRegs [(0xA, 0x1A)]) 0xFA29) [] = some ([], 0x082) := by decide

/-- MI9. -/
theorem test_ldBVx :
    memAfter (before { withRegs [(0, 0xFE)] with i := 0x300 } 0xF033) [0x300, 0x301, 0x302] =
      some ([2, 5, 4], 0x300) := by decide

/-- MI14: no byte is written. -/
theorem test_ldBVx_outOfBounds :
    faultAfter (before { withRegs [(0, 0x64)] with i := 0xFFE } 0xF033) =
      some (some (record .memWrite 0x200 0xF033 (some 0x1000)), .halted, 0x200, true) := by decide

/-- MI17: I stays. -/
theorem test_ldMiVx :
    memAfter (before { withRegs [(0, 0x02), (1, 0x05), (2, 0x77)] with i := 0x305 } 0xF155) [0x305, 0x306, 0x307] =
      some ([2, 5, 0], 0x305) := by decide

/-- MI20. -/
theorem test_ldMiVx_outOfBounds :
    faultAfter (before { withRegs [(0, 0x64)] with i := 0xFF1 } 0xFF55) =
      some (some (record .memWrite 0x200 0xFF55 (some 0x1000)), .halted, 0x200, true) := by decide

/-- MI21, from the reserved region: glyph 0 of the default font (FD8). -/
theorem test_ldVxMi :
    regsAfter (before { withRegs [(3, 0x33)] with i := 0x050 } 0xF265) [0, 1, 2, 3] =
      some ([0xF0, 0x90, 0x90, 0x33], 0x202) := by decide

/-- MI23. -/
theorem test_ldVxMi_outOfBounds :
    faultAfter (before { State.reset with i := 0xFFF } 0xF165) =
      some (some (record .memRead 0x200 0xF165 (some 0x1000)), .halted, 0x200, true) := by decide

/-- MI26, with the answer true of MI25: the coordinates are read before VF is written. -/
theorem test_drwVxVyN :
    (after (before { withRegs [(0xF, 0x05), (1, 0x07)] with i := 0x050 } 0xDF15 { quiet with collided := true })).map
      (fun t => (t.requests, t.readV 0xF)) =
      some ([.draw 0x05 0x07 [0xF0, 0x90, 0x90, 0x90, 0xF0]], 0x01) := by decide

/-- MI28: no request is made. -/
theorem test_drwVxVyN_outOfBounds :
    faultAfter (before { State.reset with i := 0xFFE } 0xD013) =
      some (some (record .memRead 0x200 0xD013 (some 0x1000)), .halted, 0x200, true) := by decide

/-! ### Timers and external events -/

/-- TE1. -/
theorem test_cls :
    (after (before State.reset 0x00E0)).map (fun t => (t.requests, t.pc, t.readV 0xF)) =
      some ([.clear], 0x202, 0) := by decide

/-- TE2 and TE4: 0x1A names no key, whatever key A does. -/
theorem test_skpVx :
    pcAfter (before (withRegs [(5, 0x0A)]) 0xE59E { quiet with keysDown := 0x0400 }) = some 0x204 ∧
    pcAfter (before (withRegs [(5, 0x1A)]) 0xE59E { quiet with keysDown := 0xFFFF }) = some 0x202 := by decide

/-- TE5 and TE6. -/
theorem test_sknpVx :
    pcAfter (before (withRegs [(5, 0x0A)]) 0xE5A1 { quiet with keysDown := 0xFBFF }) = some 0x204 ∧
    pcAfter (before (withRegs [(5, 0x1A)]) 0xE5A1 { quiet with keysDown := 0xFFFF }) = some 0x204 := by decide

/-- TE8. -/
theorem test_ldVxK_waits :
    (after (before State.reset 0xF30A)).map (fun t => (t.status, t.pc, t.readV 3)) =
      some (some .awaitingInput, 0x200, 0) := by decide

/-- TE10. -/
theorem test_ldVxK :
    regsAfter (before State.reset 0xFF0A { quiet with keyEvent := some 0xC }) [0xF] = some ([0x0C], 0x202) := by decide

/-- TE11. -/
theorem test_ldVxDt : regsAfter (before { State.reset with dt := 0x3C } 0xF407) [4] = some ([0x3C], 0x202) := by decide

/-- TE12. -/
theorem test_ldDtVx :
    (after (before (withRegs [(4, 0x3C)]) 0xF415)).map (fun t => (t.dt, t.st)) = some (0x3C, 0) := by decide

/-- TE15: no minimum. -/
theorem test_ldStVx :
    (after (before (withRegs [(4, 0x01)]) 0xF418)).map (fun t => (t.st, t.dt, t.buzzer)) =
      some (0x01, 0, true) := by decide

/-! ### Fetch, decode and the driver's operations -/

/-- FD1: the last word of memory. -/
theorem test_fetch_lastWord :
    regsAfter (before { State.reset with pc := 0xFFE } 0x6001) [0] = some ([0x01], 0x1000) := by decide

/-- S10 and FD2. -/
theorem test_fetch_outOfBounds :
    (after { queued (.step quiet) with pc := 0xFFF }).map (fun t => (t.fault, t.pc)) =
      some (some { kind := .fetch, pc := 0xFFF, opcode := none, addr := some 0x1000 }, 0xFFF) ∧
    (after { queued (.step quiet) with pc := 0x10FE }).map (fun t => (t.fault, t.pc)) =
      some (some { kind := .fetch, pc := 0x10FE, opcode := none, addr := some 0x10FE }, 0x10FE) := by decide

/-- AL28 and FD4: after reset the program region holds 0000, which is no instruction. -/
theorem test_illegalWord :
    faultAfter (before State.reset 0x8AB8) = some (some (record .decode 0x200 0x8AB8 none), .halted, 0x200, true) ∧
    faultAfter (queued (.step quiet)) = some (some (record .decode 0x200 0x0000 none), .halted, 0x200, true) := by decide

/-- A core halted by the illegal word 0123 (FD5). -/
def haltedCore (op : DriverOp) : State :=
  { queued op with
    mem := [(0x200, 0x01), (0x201, 0x23)], dt := 0x05, runState := .halted
    fault := some (record .decode 0x200 0x0123 none) }

/-- FD6 and TE18: STEP repeats the fault, TICK still counts. -/
theorem test_halted :
    (after (haltedCore (.step quiet))).map (fun t => (t.status, t.runState, t.pc)) =
      some (some (.fault (record .decode 0x200 0x0123 none)), .halted, 0x200) ∧
    (after (haltedCore .tick)).map (fun t => (t.dt, t.runState)) = some (0x04, .halted) := by decide

/-- FD7: RESET erases the program and leaves HALTED; the count of operations is the model's own. -/
theorem test_reset : after (haltedCore .reset) = some { State.reset with draws := 1 } := by decide

/-- TE16 and TE17. -/
theorem test_tick :
    (after { queued .tick with dt := 0x02, st := 0x01 }).map (fun t => (t.dt, t.st, t.buzzer)) =
      some (0x01, 0x00, false) ∧
    (after (queued .tick)).map (fun t => (t.dt, t.st)) = some (0x00, 0x00) := by decide

/-- TE20 and TE21: bytes past the image are kept. -/
theorem test_load :
    memAfter { queued (.load [0x12, 0x00]) with mem := [(0x202, 0x77)] } [0x200, 0x201, 0x202] =
      some ([0x12, 0x00, 0x77], 0) := by decide

/-- A program comes to run from reset by a LOAD and then STEPs (70_reset_and_hazards.md R232): the first word of P1. -/
theorem test_loadThenStep :
    (after { queued (.load [0x6A, 0xFF]) with pending := [.load [0x6A, 0xFF], .step quiet] }).bind
      (fun s => regsAfter s [0xA]) = some ([0xFF], 0x202) := by decide

/-- The host's placement after reset, with no operation queued. -/
theorem test_withFetchWord : regsAfter (State.reset.withFetchWord 16 0x6A42) [0xA] = some ([0x42], 0x202) := by decide

/-! ### Witnesses: the hypotheses of each statement can be met together -/

theorem witness_EncodeOfDecodeGivesWord : decode 0x8AB6 = .ok (.shrVxVy 0xA 0xB) := by decide

theorem witness_StepRunsDecodedInstr :
    (before State.reset 0x6A42).runState = .running ∧ StepIsNext (before State.reset 0x6A42) ∧
    (before State.reset 0x6A42).pc.toNat + 1 < 4096 ∧
    decode ((before State.reset 0x6A42).readByte 0x200 ++ (before State.reset 0x6A42).readByte 0x201) =
      .ok (.ldVxNn 0xA 0x42) := ⟨rfl, rfl, by decide, by decide⟩

theorem witness_FetchOutOfBoundsHalts :
    State.runState { queued (.step quiet) with pc := 0xFFF } = .running ∧
    StepIsNext { queued (.step quiet) with pc := 0xFFF } ∧
    4096 ≤ (State.pc { queued (.step quiet) with pc := 0xFFF }).toNat + 1 := ⟨rfl, rfl, by decide⟩

theorem witness_IllegalWordHalts :
    (before State.reset 0x5121).runState = .running ∧ StepIsNext (before State.reset 0x5121) ∧
    (before State.reset 0x5121).pc.toNat + 1 < 4096 ∧
    (0x5121 : Word) = (before State.reset 0x5121).readByte 0x200 ++ (before State.reset 0x5121).readByte 0x201 ∧
    legalWord 0x5121 = false := ⟨rfl, rfl, by decide, by decide, by decide⟩

theorem witness_HaltedStepRepeatsFault :
    (haltedCore (.step quiet)).runState = .halted ∧
    (haltedCore (.step quiet)).fault = some (record .decode 0x200 0x0123 none) ∧
    StepIsNext (haltedCore (.step quiet)) := ⟨rfl, rfl, rfl⟩

theorem witness_FaultsArePrecise :
    (before State.reset 0x00EE).runState = .running ∧ StepIsNext (before State.reset 0x00EE) ∧
    (after (before State.reset 0x00EE)).map State.runState = some .halted := ⟨rfl, rfl, by decide⟩

/-- Both sides: a TICK stays in HALTED, a RESET leaves it. -/
theorem witness_OnlyResetLeavesHalted :
    (haltedCore .tick).runState = .halted ∧ (after (haltedCore .tick)).map State.runState = some .halted ∧
    (haltedCore .reset).runState = .halted ∧ (after (haltedCore .reset)).map State.runState = some .running := by decide

theorem witness_TickDecrementsTimers : (haltedCore .tick).nextOp = .tick := rfl

/-- The buzzer changes by each of the three causes; the first of them is a STEP at an Fx18. -/
theorem witness_BuzzerFollowsSoundTimer :
    (after (before (withRegs [(4, 0x01)]) 0xF418)).map State.buzzer = some true ∧
    (before (withRegs [(4, 0x01)]) 0xF418).buzzer = false ∧
    (before (withRegs [(4, 0x01)]) 0xF418).instrAtPc = some (.ldStVx 4) ∧
    (after { queued .tick with st := 0x01 }).map State.buzzer = some false ∧
    (after { queued .reset with st := 0x02 }).map State.buzzer = some false ∧
    State.buzzer { queued .tick with st := 0x01 } = true := by decide

/-- A LOAD, with its first byte inside memory and an address just past its last. -/
theorem witness_LoadFillsProgramRegion :
    (queued (.load [0x12])).nextOp = .load [0x12] ∧ ([0x12] : List Byte)[0]? = some 0x12 ∧ 0x200 + 0 < 4096 ∧
    0x200 + ([0x12] : List Byte).length ≤ 0x201 := ⟨rfl, rfl, by decide, by decide⟩

theorem witness_ResetRestoresPowerOn : (haltedCore .reset).nextOp = .reset := rfl

/-- A running core in a subroutine, with a program byte listed, about to return. -/
def inSubroutine : State :=
  { before State.reset 0x00EE with sp := 1, stack := State.reset.stack.set 0 0x1000, i := 0x300 }

/-- A state other than reset that meets the invariant and takes a next state. -/
theorem witness_StepKeepsInv : Inv inSubroutine ∧ (after inSubroutine).map State.pc = some 0x1000 :=
  ⟨{ cfgWellFormed := by decide
     memCanonical := by decide
     faultIffHalted := by decide
     faultPc := fun _ h => nomatch h
     pcBound := by decide
     stackBound := by decide }, by decide⟩

/-- The invariant holds of a halted core too. -/
theorem witness_InvStepAlwaysGoesOn : Inv (haltedCore .tick) :=
  { cfgWellFormed := by decide
    memCanonical := by decide
    faultIffHalted := by decide
    faultPc := fun _ h => by cases h; rfl
    pcBound := by decide
    stackBound := by decide }

theorem witness_CanonicalMemoriesReadingAlikeAreEqual :
    Memory.wf Config.default [(0x050, 0x00), (0xFFF, 0x01)] := by decide

theorem witness_ParametersNeverChange :
    (∃ t, exec .cls State.reset = .next t) ∧ ∃ t, step (haltedCore .reset) = .next t := ⟨⟨_, rfl⟩, ⟨_, rfl⟩⟩

theorem witness_OnlyNamedInstrsWriteRegs :
    (∃ t, exec (.ldINnn 0x300) State.reset = .next t) ∧ ¬ writesReg (.ldINnn 0x300) 0x3 := ⟨⟨_, rfl⟩, fun h => h⟩

theorem witness_OnlyNamedInstrsWriteParts :
    (∃ t, exec (.ldINnn 0x300) State.reset = .next t) ∧ ¬ writesPart (.ldINnn 0x300) .mem :=
  ⟨⟨_, rfl⟩, by simp [writesPart]⟩

theorem witness_OnlyNamedInstrsFault :
    State.reset.runState = .running ∧ ∃ t, exec .ret State.reset = .next t ∧ t.runState = .halted := ⟨rfl, _, rfl, rfl⟩

theorem witness_OnlyNamedInstrsUseAnswers : usesAnswer (.ldVxMi 0x3) = false := rfl

/-- Both clauses: a VF-setting instruction that names VF, and one that sets no flag. -/
theorem witness_VFIsAFlagAfterVFSetters :
    State.reset.runState = .running ∧
    (∃ t, exec (.addVxVy 0xF 0xF) State.reset = .next t ∧ t.runState = .running) ∧ setsVF (.addVxVy 0xF 0xF) = true ∧
    (∃ t, exec (.ldVxNn 0xE 0x01) State.reset = .next t ∧ t.runState = .running) ∧
    setsVF (.ldVxNn 0xE 0x01) = false ∧ ¬ writesReg (.ldVxNn 0xE 0x01) 0xF :=
  ⟨rfl, ⟨_, rfl, rfl⟩, rfl, ⟨_, rfl, rfl⟩, rfl, by simp [writesReg]⟩

/-- The clauses for x other than F, and for a jump to 0xFFF. -/
theorem witness_boundaryOperands : (0xE : Nibble) ≠ 0xF ∧ (0xFFF : Addr12).toNat = 0xFFF := by decide

theorem witness_JumpWithOffset :
    (after (before (withRegs [(0, 0x00)]) 0xBFFF)).map (fun t => (t.pc, (fetch t).toOption)) = some (0xFFF, none) := by
  decide

/-- Both clauses at their boundary: 15 and 16 return addresses. -/
theorem witness_CallPushesOrOverflows :
    (State.sp { State.reset with sp := 15 }).val < 16 ∧ (State.sp { State.reset with sp := 16 }).val = 16 := by decide

/-- Both clauses at their boundary: one and no return address. -/
theorem witness_ReturnPopsOrUnderflows : 0 < inSubroutine.sp.val ∧ State.reset.sp.val = 0 := by decide

theorem witness_CallThenReturnRestores : (State.sp { State.reset with sp := 15 }).val < 16 := by decide

theorem witness_SkipsOnRegisters : (0x1 : Nibble) ≠ 0x0 := by decide

/-- CF16. -/
theorem witness_SelfLoopChangesNothing :
    inSelfLoop (before State.reset 0x1200) = true ∧ StepIsNext (before State.reset 0x1200) := ⟨by decide, rfl⟩

theorem witness_IndexToGlyph : State.reset.cfg.wellFormed = true := by decide

/-- The reset state with some I, and PROTECT_RESERVED on. -/
def protectedAt (i : Word) : State :=
  { State.reset with i := i, cfg := { Config.default with protectReserved := true } }

/-- The three clauses at their boundaries, which do not meet: the last I that fits, the first that does not (MI13, MI14),
and, protected, the first I that may be written and the last that may not (MI15). -/
theorem witness_StoreDecimalDigits :
    (protectedAt 0xFFD).dataAddr 2 < 4096 ∧ 4096 ≤ (protectedAt 0xFFE).dataAddr 2 ∧
    ¬ ((protectedAt 0x200).cfg.protectReserved = true ∧ (protectedAt 0x200).dataAddr 0 < 0x200) ∧
    (protectedAt 0x1FF).cfg.protectReserved = true ∧ (protectedAt 0x1FF).dataAddr 0 < 0x200 := by decide

/-- The same with x = F (MI19, MI20). -/
theorem witness_StoreRegisters :
    (protectedAt 0xFF0).dataAddr 15 < 4096 ∧ 4096 ≤ (protectedAt 0xFF1).dataAddr 15 ∧
    ¬ ((protectedAt 0x200).cfg.protectReserved = true ∧ (protectedAt 0x200).dataAddr 0 < 0x200) ∧
    (protectedAt 0x1FF).cfg.protectReserved = true ∧ (protectedAt 0x1FF).dataAddr 0 < 0x200 := by decide

/-- The last I from which two bytes can be read, and the first from which they cannot (MI23). -/
theorem witness_LoadRegisters :
    (protectedAt 0xFFE).dataAddr 1 < 4096 ∧ 4096 ≤ (protectedAt 0xFFF).dataAddr 1 := by decide

/-- The clauses at their boundary (MI29, MI28), and an empty sprite (MI27). -/
theorem witness_DrawSprite :
    (protectedAt 0xFFE).dataAddr 2 ≤ 4096 ∧ (3 : Nibble).toNat ≠ 0 ∧ 4096 < (protectedAt 0xFFE).dataAddr 3 ∧
    (0 : Nibble).toNat = 0 := by decide

theorem witness_StoredWordIsFetchedNext :
    State.i { State.reset with i := 0x202 } = State.reset.pc + 2 ∧ State.reset.pc.toNat + 3 < 4096 ∧
    ¬ (State.reset.cfg.protectReserved = true ∧ (0x202 : Word).toNat < 0x200) := by decide

/-- Key 0xF down, and the key value 0x10 that names none. -/
theorem witness_SkipsOnKey :
    (true = if ((withRegs [(5, 0x0F)]).readV 5).toNat < 16 then (0x8000 : BitVec 16).getLsbD 15 else false) ∧
    (false = if ((withRegs [(5, 0x10)]).readV 5).toNat < 16 then (0x8000 : BitVec 16).getLsbD 16 else false) := by decide

/-- An event, and none. -/
theorem witness_WaitForKey :
    (before State.reset 0xF30A { quiet with keyEvent := some 0xF }).answers.keyEvent = some 0xF ∧
    (before State.reset 0xF30A).answers.keyEvent = none := ⟨rfl, rfl⟩

/-- Three TICKs between two STEPs, ST reaching 0 on the way. -/
theorem witness_AnyNumberOfTicksFallBetweenSteps :
    State.pending { State.reset with pending := [.tick, .tick, .tick, .step quiet], dt := 0x14, st := 0x02 } =
      List.replicate 3 .tick ++ [.step quiet] ∧
    (stateAfter 3 { State.reset with pending := [.tick, .tick, .tick, .step quiet], dt := 0x14, st := 0x02 }).map
      (fun t => (t.dt, t.st)) = some (0x11, 0x00) := by decide

/-- Both clauses: no event, and an event; a TICK in a wait delivers none. -/
theorem witness_WaitingStepChangesNothing :
    (before State.reset 0xF30A).instrAtPc = some (.ldVxK 3) ∧ StepIsNext (before State.reset 0xF30A) ∧
    waitingForKey (before State.reset 0xF30A) = true ∧
    waitingForKey (before State.reset 0xF30A { quiet with keyEvent := some 0x7 }) = false ∧
    waitingForKey { before State.reset 0xF30A with pending := [.tick] } = true :=
  ⟨by decide, rfl, by decide, by decide, by decide⟩

end Sys2Proof.Tests
end

section
/-! Proofs about the encoding (30_encoding.md section 3): what the decode tree answers in a family whose sub-opcode selects
the instruction. -/

namespace Sys2Proof

/-! ### The branch that the family nibble takes (R74) -/

theorem decode_of_family8 {w : Word} (h : fieldF w = 0x8#4) : decode w = decodeFamily8 w := by
  simp only [decode, h]

theorem decode_of_familyE {w : Word} (h : fieldF w = 0xE#4) : decode w = decodeFamilyE w := by
  simp only [decode, h]

theorem decode_of_familyF {w : Word} (h : fieldF w = 0xF#4) : decode w = decodeFamilyF w := by
  simp only [decode, h]
  rfl

/-! ### The choice on the sub-opcode -/

/-- R77: the nine values of `n` that are operations of the ALU, and no others. -/
theorem decode_family8_toOption (x y n : Nibble) :
    (decode (formXyn 0x8#4 x y n)).toOption =
      if n = 0x0 then some (.ldVxVy x y) else if n = 0x1 then some (.orVxVy x y)
      else if n = 0x2 then some (.andVxVy x y) else if n = 0x3 then some (.xorVxVy x y)
      else if n = 0x4 then some (.addVxVy x y) else if n = 0x5 then some (.subVxVy x y)
      else if n = 0x6 then some (.shrVxVy x y) else if n = 0x7 then some (.subnVxVy x y)
      else if n = 0xE then some (.shlVxVy x y) else none := by
  rw [decode_of_family8 (fieldF_formXyn ..)]
  simp only [decodeFamily8, fieldN_formXyn, fieldX_formXyn, fieldY_formXyn]
  split
  case h_10 => simp_all [Except.toOption] -- the wildcard arm: `n` is none of the listed values
  all_goals rfl -- a listed value

/-- R78: the two values of `nn` that are key skips, and no others. -/
theorem decode_familyE_toOption (x : Nibble) (nn : Byte) :
    (decode (formXnn 0xE#4 x nn)).toOption =
      if nn = 0x9E then some (.skpVx x) else if nn = 0xA1 then some (.sknpVx x) else none := by
  rw [decode_of_familyE (fieldF_formXnn ..)]
  simp only [decodeFamilyE, fieldNn_formXnn, fieldX_formXnn]
  split
  case h_3 => simp_all [Except.toOption] -- the wildcard arm: `nn` is none of the listed values
  all_goals rfl -- a listed value

/-- R79: the nine values of `nn` that are instructions, and no others. -/
theorem decode_familyF_toOption (x : Nibble) (nn : Byte) :
    (decode (formXnn 0xF#4 x nn)).toOption =
      if nn = 0x07 then some (.ldVxDt x) else if nn = 0x0A then some (.ldVxK x)
      else if nn = 0x15 then some (.ldDtVx x) else if nn = 0x18 then some (.ldStVx x)
      else if nn = 0x1E then some (.addIVx x) else if nn = 0x29 then some (.ldFVx x)
      else if nn = 0x33 then some (.ldBVx x) else if nn = 0x55 then some (.ldMiVx x)
      else if nn = 0x65 then some (.ldVxMi x) else none := by
  rw [decode_of_familyF (fieldF_formXnn ..)]
  simp only [decodeFamilyF, fieldNn_formXnn, fieldX_formXnn]
  split
  case h_10 => simp_all [Except.toOption] -- the wildcard arm: `nn` is none of the listed values
  all_goals rfl -- a listed value

/-- Settles O4: each family is one choice on its sub-opcode, and a value that no arm names is rejected. -/
theorem subOpcodesSelectInstr : Obligations.SubOpcodesSelectInstr :=
  ⟨decode_family8_toOption, decode_familyE_toOption, decode_familyF_toOption⟩

end Sys2Proof
end

section
/-! Proofs about the register loads and the ALU group (41_arithmetic_logic.md): each instruction is one write of `V[x]`,
or that write and then the flag into VF. -/

namespace Sys2Proof

/-! ### The word of an instruction -/

/-- The decode tree undoes the encoder: on the family alone, or on the sub-opcode too (30_encoding.md R74). -/
theorem decode_encode (i : Instr) : decode (encode i) = .ok i := by
  cases i with
  | cls | ret => decide
  | ldVxVy | orVxVy | andVxVy | xorVxVy | addVxVy | subVxVy | shrVxVy | subnVxVy | shlVxVy =>
    simp [encode, decode_of_family8, decodeFamily8]
  | skpVx | sknpVx => simp [encode, decode_of_familyE, decodeFamilyE]
  | ldVxDt | ldVxK | ldDtVx | ldStVx | addIVx | ldFVx | ldBVx | ldMiVx | ldVxMi =>
    simp [encode, decode_of_familyF, decodeFamilyF]
  | _ => simp [encode, decode]

end Sys2Proof

namespace Sys2Proof.Machine

/-! ### The frame of a register write -/

/-- Only the register file, PC and the status differ. -/
theorem keepsAllBut_v (s : State) (v : Vector Byte 16) (w : Word) :
    KeepsAllBut [.v] s { s with v := v, pc := w, status := some .ok } := by
  refine ⟨fun p hp => ?_, rfl, rfl, rfl⟩
  cases p with
  | v => simp at hp
  | stack => exact fun _ => rfl
  | mem => exact fun _ => rfl
  | i | sp | dt | st | requests => rfl

section
variable {i : Instr} {s : State} {x : Nibble} {b f : Byte}

/-- An instruction whose meaning is one register write. -/
theorem exec_of_writeV (h : exec i s = complete (s.writeV x b) s.pcNext) :
    ∃ t, exec i s = .next t ∧ t.pc = s.pc + 2 ∧ t.readV x = b ∧ KeepsRegsBut x s t ∧ KeepsAllBut [.v] s t :=
  ⟨_, h, rfl, s.readV_writeV_same x b, fun _ hr => s.readV_writeV_other b hr, keepsAllBut_v s _ _⟩

/-- An instruction whose meaning is a register write and then the flag: with `x` = F the flag stays
(40_fetch_decode_execute.md R95). -/
theorem exec_of_writeV_writeVF (h : exec i s = complete ((s.writeV x b).writeVF f) s.pcNext) :
    ∃ t, exec i s = .next t ∧ t.pc = s.pc + 2 ∧ (x ≠ 0xF → t.readV x = b) ∧ t.readV 0xF = f ∧
      KeepsRegsButVF x s t ∧ KeepsAllBut [.v] s t := by
  refine ⟨_, h, rfl, fun hx => ?_, (s.writeV x b).readV_writeV_same flagReg f, fun r hr hF => ?_, keepsAllBut_v s _ _⟩
  · exact ((s.writeV x b).readV_writeV_other f hx).trans (s.readV_writeV_same x b)
  · exact ((s.writeV x b).readV_writeV_other f hF).trans (s.readV_writeV_other b hr)

end

/-! ### The flags as the statements write them -/

theorem flagByte_carryOut (a b : Byte) :
    flagByte (carryOut a b) = if 0xFF < a.toNat + b.toNat then 1 else 0 := by
  simp [flagByte, carryOut]

theorem flagByte_notBorrow (a b : Byte) : flagByte (notBorrow a b) = if b.toNat ≤ a.toNat then 1 else 0 := by
  simp [flagByte, notBorrow]

/-! ### The statements -/

/-- Settles O29: the one register write is the immediate. -/
theorem loadImmediate : Obligations.LoadImmediate := fun x nn _ =>
  ⟨decode_encode (.ldVxNn x nn), exec_of_writeV rfl⟩

/-- Settles O31: the one register write is `V[y]`, or a bitwise operation of `V[x]` and `V[y]`. -/
theorem copyAndLogic : Obligations.CopyAndLogic := fun x y s => by
  refine ⟨decode_encode (.ldVxVy x y), decode_encode (.orVxVy x y), decode_encode (.andVxVy x y),
    decode_encode (.xorVxVy x y), exec_of_writeV rfl, ?_, ?_, ?_⟩
  · obtain ⟨t, hexec, hpc, hx, hframe⟩ := exec_of_writeV (i := .orVxVy x y) (s := s) rfl
    exact ⟨t, hexec, hpc, fun _ => by rw [hx, BitVec.getLsbD_or], hframe⟩
  · obtain ⟨t, hexec, hpc, hx, hframe⟩ := exec_of_writeV (i := .andVxVy x y) (s := s) rfl
    exact ⟨t, hexec, hpc, fun _ => by rw [hx, BitVec.getLsbD_and], hframe⟩
  · obtain ⟨t, hexec, hpc, hx, hframe⟩ := exec_of_writeV (i := .xorVxVy x y) (s := s) rfl
    exact ⟨t, hexec, hpc, fun _ => by rw [hx, BitVec.getLsbD_xor], hframe⟩

/-- Settles O32: the sum, then the carry of the old operands. -/
theorem addRegisters : Obligations.AddRegisters := fun x y s => by
  obtain ⟨t, hexec, hpc, hx, hF, hframe⟩ := exec_of_writeV_writeVF (i := .addVxVy x y) (s := s) rfl
  exact ⟨decode_encode (.addVxVy x y), t, hexec, hpc, fun hne => by rw [hx hne, toNat_add8],
    by rw [hF, flagByte_carryOut], hframe⟩

/-- Settles O33: the difference, then not-borrow of the old operands. -/
theorem subtractRegisters : Obligations.SubtractRegisters := fun x y s => by
  obtain ⟨t, hexec, hpc, hx, hF, hframe⟩ := exec_of_writeV_writeVF (i := .subVxVy x y) (s := s) rfl
  exact ⟨decode_encode (.subVxVy x y), t, hexec, hpc, fun hne => by rw [hx hne, toNat_sub8],
    by rw [hF, flagByte_notBorrow], hframe⟩

/-- Settles O34: the reversed difference, then not-borrow of the old operands in that order. -/
theorem subtractReversed : Obligations.SubtractReversed := fun x y s => by
  obtain ⟨t, hexec, hpc, hx, hF, hframe⟩ := exec_of_writeV_writeVF (i := .subnVxVy x y) (s := s) rfl
  exact ⟨decode_encode (.subnVxVy x y), t, hexec, hpc, fun hne => by rw [hx hne, toNat_sub8],
    by rw [hF, flagByte_notBorrow], hframe⟩

end Sys2Proof.Machine
end

section
/-! Proofs about jumps and skips (42_control_flow.md): each instruction writes PC and nothing else. -/

namespace Sys2Proof.Machine

/-! ### The frame of an instruction that only moves PC -/

/-- Only PC and the status differ. -/
theorem keepsAllBut_nil (s : State) (w : Word) : KeepsAllBut [] s { s with pc := w, status := some .ok } := by
  refine ⟨fun p _ => ?_, rfl, rfl, rfl⟩
  cases p with
  | v | stack | mem => exact fun _ => rfl
  | i | sp | dt | st | requests => rfl

section
variable {i : Instr} {s : State}

/-- An instruction whose meaning is a write of PC. -/
theorem exec_of_complete {w : Word} (h : exec i s = complete s w) :
    ∃ t, exec i s = .next t ∧ t.pc = w ∧ KeepsAllBut [] s t :=
  ⟨_, h, rfl, keepsAllBut_nil s w⟩

/-- An instruction whose meaning is a skip, with the condition it computes read as a proposition
(42_control_flow.md R141). -/
theorem exec_of_skipTarget {c : Bool} {p : Prop} [Decidable p] (h : exec i s = complete s (s.skipTarget c))
    (hc : c = true ↔ p) :
    ∃ t, exec i s = .next t ∧ t.pc = (if p then s.pc + 4 else s.pc + 2) ∧ KeepsAllBut [] s t := by
  obtain ⟨t, hexec, hpc, hframe⟩ := exec_of_complete h
  exact ⟨t, hexec, by simp only [hpc, State.skipTarget, hc], hframe⟩

end

/-! ### The statements -/

/-- Settles O37: PC is the zero-extended target, and at 0xFFF the second byte of a word lies outside memory. -/
theorem jump : Obligations.Jump := fun nnn s => by
  obtain ⟨t, hexec, hpc, hframe⟩ := exec_of_complete (i := .jpNnn nnn) (s := s) rfl
  have htarget : t.pc.toNat = nnn.toNat := by rw [hpc, toNat_zext12]
  refine ⟨decode_encode (.jpNnn nnn), t, hexec, htarget, hframe, ?_⟩
  rintro rfl
  exact ⟨_, fetch_error (by rw [htarget]; decide)⟩

/-- Settles O42: the two skips compute the equality with the immediate, or its negation. -/
theorem skipsOnImmediate : Obligations.SkipsOnImmediate := fun x nn _ =>
  ⟨decode_encode (.seVxNn x nn), decode_encode (.sneVxNn x nn),
    exec_of_skipTarget rfl beq_iff_eq, exec_of_skipTarget rfl bne_iff_ne⟩

end Sys2Proof.Machine
end

section
/-! Proofs about the index register (43_memory_index_sprite.md): the instruction is one write of I. -/

namespace Sys2Proof.Machine

/-- Only I, PC and the status differ. -/
theorem keepsAllBut_i (s : State) (a w : Word) :
    KeepsAllBut [.i] s { s with i := a, pc := w, status := some .ok } := by
  refine ⟨fun p hp => ?_, rfl, rfl, rfl⟩
  cases p with
  | i => simp at hp
  | v | stack | mem => exact fun _ => rfl
  | sp | dt | st | requests => rfl

/-- Settles O45: I is the zero-extended address field. -/
theorem loadIndex : Obligations.LoadIndex := fun nnn s =>
  ⟨decode_encode (.ldINnn nnn), _, rfl, rfl, toNat_zext12 nnn, keepsAllBut_i s _ _⟩

end Sys2Proof.Machine
end

section
/-! Proofs about the timers and the buzzer (44_timers_external.md): Fx07 is a register write, Fx15 a write of DT, and ST,
with it the buzzer, has three writers. -/

namespace Sys2Proof.Machine

/-! ### The delay timer -/

/-- Only DT, PC and the status differ. -/
theorem keepsAllBut_dt (s : State) (d : Byte) (w : Word) :
    KeepsAllBut [.dt] s { s with dt := d, pc := w, status := some .ok } := by
  refine ⟨fun p hp => ?_, rfl, rfl, rfl⟩
  cases p with
  | dt => simp at hp
  | v | stack | mem => exact fun _ => rfl
  | i | sp | st | requests => rfl

/-- Settles O56: the one register write is DT as the step finds it. -/
theorem readDelayTimer : Obligations.ReadDelayTimer := fun x _ =>
  ⟨decode_encode (.ldVxDt x), exec_of_writeV rfl⟩

/-- Settles O57: the one write is of DT. -/
theorem setDelayTimer : Obligations.SetDelayTimer := fun x s =>
  ⟨decode_encode (.ldDtVx x), _, rfl, rfl, rfl, keepsAllBut_dt s _ _⟩

/-! ### Who writes the sound timer -/

/-- No instruction but Fx18 writes ST (10_state.md R30). -/
theorem exec_keeps_st {i : Instr} {s t : State} (hi : ∀ x, i ≠ .ldStVx x) (h : exec i s = .next t) :
    t.st = s.st := by
  cases i with
  | ldStVx x => exact absurd rfl (hi x)
  | ret =>
    rcases Nat.eq_zero_or_pos s.sp.val with h0 | h0
    · simp only [exec, execRet, State.pop_none s h0] at h
      cases h; rfl
    · simp only [exec, execRet, State.pop_some s h0] at h
      cases h; rfl
  | callNnn nnn =>
    by_cases h16 : s.sp.val < 16
    · simp only [exec, execCallNnn, State.push_some s _ h16] at h
      cases h; rfl
    · simp only [exec, execCallNnn, State.push_none s _ (by omega)] at h
      cases h; rfl
  | drwVxVyN | ldVxMi =>
    simp only [exec, execDrwVxVyN, execLdVxMi] at h
    split at h
    · cases h; simp -- the bytes are read
    · cases h; rfl -- an address lies outside memory
  | ldBVx | ldMiVx =>
    simp only [exec, execLdBVx, execLdMiVx] at h
    split at h
    case h_1 hw => -- the bytes are stored
      obtain ⟨rfl, -⟩ := State.memWrite_cases hw
      cases h; simp
    case h_2 => cases h; rfl -- an address may not be written
  | ldVxK x =>
    cases h
    cases s.answers.keyEvent <;> rfl
  | _ => cases h; rfl

/-- A STEP that changes ST runs Fx18: a fault, and a STEP in HALTED, leave ST alone. -/
theorem instrAtPc_of_runInstr_st_ne {s t : State} (h : runInstr s = .next t) (hst : t.st ≠ s.st) :
    ∃ x, s.instrAtPc = some (.ldStVx x) := by
  cases hr : s.runState with
  | halted =>
    obtain ⟨r, -, rfl⟩ := runInstr_halted hr h
    exact absurd rfl hst
  | running =>
    obtain ⟨r, -, hf⟩ | ⟨i, hi, he, -⟩ := runInstr_cases s hr
    · cases hf.symm.trans h
      exact absurd rfl hst
    · by_contra hne
      exact hst (exec_keeps_st (fun x hx => hne ⟨x, hx ▸ hi⟩) (he.symm.trans h))

/-! ### The buzzer -/

/-- R187: the decrement is floored at 0. -/
theorem toNat_tickTimer (b : Byte) : (tickTimer b).toNat = b.toNat - 1 := by
  unfold tickTimer
  split <;> bv_omega

/-- R189: the buzzer output is `ST != 0`. -/
theorem State.buzzer_iff (s : State) : s.buzzer = true ↔ s.st.toNat ≠ 0 := by
  rw [State.buzzer, bne_iff_ne, ne_eq, BitVec.toNat_eq]
  rfl

/-- The buzzer changes only when ST does. -/
theorem State.st_ne_of_buzzer_ne {s t : State} (h : t.buzzer ≠ s.buzzer) : t.st ≠ s.st :=
  fun hst => h (by rw [State.buzzer, hst, State.buzzer])

/-- A TICK that changes the buzzer finds ST at 1: only there does the decrement cross between 0 and the rest. -/
theorem st_eq_one_of_tick_buzzer_ne {s : State} (h : (performTick s).buzzer ≠ s.buzzer) : s.st.toNat = 1 := by
  rw [ne_eq, Bool.eq_iff_iff, State.buzzer_iff, State.buzzer_iff, performTick_st, toNat_tickTimer] at h
  omega

/-- Settles O14: by the operation; a LOAD leaves ST alone, and the other three are the causes. -/
theorem buzzerFollowsSoundTimer : Obligations.BuzzerFollowsSoundTimer := by
  refine ⟨State.buzzer_iff, fun s t hstep hne => ?_⟩
  cases hop : s.nextOp with
  | reset => exact .inr (.inr rfl)
  | load bytes =>
    cases (step_load hop).symm.trans hstep
    exact absurd (loadFrom_st s 0 bytes) (State.st_ne_of_buzzer_ne hne)
  | tick =>
    cases (step_tick hop).symm.trans hstep
    have h1 : s.st.toNat = 1 := st_eq_one_of_tick_buzzer_ne hne
    exact .inr (.inl ⟨rfl, h1, (toNat_tickTimer s.st).trans (by rw [h1])⟩)
  | step e =>
    have hs : StepIsNext s := DriverOp.isStep_iff.2 ⟨e, hop⟩
    obtain ⟨u, hu, rfl⟩ := mapNext_eq_next ((step_step hs).symm.trans hstep)
    exact .inl ⟨hs, instrAtPc_of_runInstr_st_ne hu (State.st_ne_of_buzzer_ne hne)⟩

end Sys2Proof.Machine
end

section
/-! Proofs about the words of the whole instruction set (30_encoding.md): decoding undoes encoding and is undone by it,
and the opcode table accepts exactly the words that decode. -/

namespace Sys2Proof

/-! ### Bytes of an instruction -/

/-- Settles O1: the two bytes make the word again, and the decode tree undoes the encoder on it. -/
theorem decodeOfEncodeGivesInstr : Obligations.DecodeOfEncodeGivesInstr := fun i rest => by
  simp [encodeBytes, decodeBytes, decode_encode]

/-! ### Encoding what a word decodes to: a word is the form of its own fields -/

section
variable {w : Word} {f n : Nibble} {nn : Byte}

theorem formNnn_of_fieldF (hf : fieldF w = f) : formNnn f (fieldNnn w) = w :=
  hf ▸ formNnn_fields w

theorem formXnn_of_fieldF (hf : fieldF w = f) : formXnn f (fieldX w) (fieldNn w) = w :=
  hf ▸ formXnn_fields w

theorem formXnn_of_fields (hf : fieldF w = f) (hn : fieldNn w = nn) : formXnn f (fieldX w) nn = w :=
  hn ▸ formXnn_of_fieldF hf

theorem formXyn_of_fieldF (hf : fieldF w = f) : formXyn f (fieldX w) (fieldY w) (fieldN w) = w :=
  hf ▸ formXyn_fields w

theorem formXyn_of_fields (hf : fieldF w = f) (hn : fieldN w = n) : formXyn f (fieldX w) (fieldY w) n = w :=
  hn ▸ formXyn_of_fieldF hf

end

theorem encode_of_decodeFamily0 {w : Word} {i : Instr} (h : decodeFamily0 w = .ok i) : encode i = w := by
  unfold decodeFamily0 at h
  split_ifs at h with h0 h1
  · cases h; exact h0.symm
  · cases h; exact h1.symm

theorem encode_of_decodeFamily8 {w : Word} {i : Instr} (hf : fieldF w = 0x8#4) (h : decodeFamily8 w = .ok i) :
    encode i = w := by
  unfold decodeFamily8 at h
  split at h
  case h_10 => cases h -- a sub-opcode that no arm names
  all_goals cases h; exact formXyn_of_fields hf ‹_›

theorem encode_of_decodeFamilyE {w : Word} {i : Instr} (hf : fieldF w = 0xE#4) (h : decodeFamilyE w = .ok i) :
    encode i = w := by
  unfold decodeFamilyE at h
  split at h
  case h_3 => cases h -- a sub-opcode that no arm names
  all_goals cases h; exact formXnn_of_fields hf ‹_›

theorem encode_of_decodeFamilyF {w : Word} {i : Instr} (hf : fieldF w = 0xF#4) (h : decodeFamilyF w = .ok i) :
    encode i = w := by
  unfold decodeFamilyF at h
  split at h
  case h_10 => cases h -- a sub-opcode that no arm names
  all_goals cases h; exact formXnn_of_fields hf ‹_›

/-- Settles O2: by the branch of the decode tree; each arm that answers an instruction kept every field of the word. -/
theorem encodeOfDecodeGivesWord : Obligations.EncodeOfDecodeGivesWord := fun w i h => by
  unfold decode at h
  split at h
  case h_1 => exact encode_of_decodeFamily0 h
  case h_9 => exact encode_of_decodeFamily8 ‹_› h
  case h_15 => exact encode_of_decodeFamilyE ‹_› h
  case h_16 => -- the wildcard arm: the one family left
    have hf : fieldF w = 0xF#4 := by simp only [imp_false] at *; bv_omega
    exact encode_of_decodeFamilyF hf h
  case h_6 | h_10 => -- families 5 and 9: only `n` = 0
    split_ifs at h with hn
    cases h
    exact formXyn_of_fields ‹_› hn
  case h_2 | h_3 | h_11 | h_12 => cases h; exact formNnn_of_fieldF ‹_›
  case h_14 => cases h; exact formXyn_of_fieldF ‹_›
  all_goals cases h; exact formXnn_of_fieldF ‹_›

/-! ### The opcode table -/

/-- The row of an instruction's mnemonic accepts its word. -/
theorem encode_accepted (i : Instr) : Laws.Encoding.Statement i := by
  cases i with
  | cls => exact Laws.Encoding.cls
  | ret => exact Laws.Encoding.ret
  | jpNnn nnn => exact Laws.Encoding.jpNnn nnn
  | callNnn nnn => exact Laws.Encoding.callNnn nnn
  | seVxNn x nn => exact Laws.Encoding.seVxNn x nn
  | sneVxNn x nn => exact Laws.Encoding.sneVxNn x nn
  | seVxVy x y => exact Laws.Encoding.seVxVy x y
  | ldVxNn x nn => exact Laws.Encoding.ldVxNn x nn
  | addVxNn x nn => exact Laws.Encoding.addVxNn x nn
  | ldVxVy x y => exact Laws.Encoding.ldVxVy x y
  | orVxVy x y => exact Laws.Encoding.orVxVy x y
  | andVxVy x y => exact Laws.Encoding.andVxVy x y
  | xorVxVy x y => exact Laws.Encoding.xorVxVy x y
  | addVxVy x y => exact Laws.Encoding.addVxVy x y
  | subVxVy x y => exact Laws.Encoding.subVxVy x y
  | shrVxVy x y => exact Laws.Encoding.shrVxVy x y
  | subnVxVy x y => exact Laws.Encoding.subnVxVy x y
  | shlVxVy x y => exact Laws.Encoding.shlVxVy x y
  | sneVxVy x y => exact Laws.Encoding.sneVxVy x y
  | ldINnn nnn => exact Laws.Encoding.ldINnn nnn
  | jpV0Nnn nnn => exact Laws.Encoding.jpV0Nnn nnn
  | rndVxNn x nn => exact Laws.Encoding.rndVxNn x nn
  | drwVxVyN x y n => exact Laws.Encoding.drwVxVyN x y n
  | skpVx x => exact Laws.Encoding.skpVx x
  | sknpVx x => exact Laws.Encoding.sknpVx x
  | ldVxDt x => exact Laws.Encoding.ldVxDt x
  | ldVxK x => exact Laws.Encoding.ldVxK x
  | ldDtVx x => exact Laws.Encoding.ldDtVx x
  | ldStVx x => exact Laws.Encoding.ldStVx x
  | addIVx x => exact Laws.Encoding.addIVx x
  | ldFVx x => exact Laws.Encoding.ldFVx x
  | ldBVx x => exact Laws.Encoding.ldBVx x
  | ldMiVx x => exact Laws.Encoding.ldMiVx x
  | ldVxMi x => exact Laws.Encoding.ldVxMi x

/-- The mask F000 fixes the family. -/
theorem fieldF_of_mask {w v : Word} (h : w &&& 0xF000#16 = v) : fieldF w = fieldF v := by
  rw [← h, ← formNnn_fields w, formNnn_and]
  simp

/-- The mask F00F fixes the family and `n`. -/
theorem fieldF_fieldN_of_mask {w v : Word} (h : w &&& 0xF00F#16 = v) : fieldF w = fieldF v ∧ fieldN w = fieldN v := by
  rw [← h, ← formXyn_fields w, formXyn_and]
  simp

/-- The mask F0FF fixes the family and `nn`. -/
theorem fieldF_fieldNn_of_mask {w v : Word} (h : w &&& 0xF0FF#16 = v) :
    fieldF w = fieldF v ∧ fieldNn w = fieldNn v := by
  rw [← h, ← formXnn_fields w, formXnn_and]
  simp

theorem whole_of_mask {w v : Word} (h : w &&& 0xFFFF#16 = v) : w = v := by
  rw [← h]; exact BitVec.and_allOnes.symm


/-- A word that a row of families 0x0 to 0x7 accepts decodes. -/
theorem decode_ok_of_rowsLow {w : Word} : ∀ row ∈ opcodeRowsLow, row.accepts w = true → ∃ i, decode w = .ok i := by
  simp only [opcodeRowsLow, List.forall_mem_cons, OpcodeRow.accepts, beq_iff_eq]
  refine ⟨fun h => ?_, fun h => ?_, fun h => ?_, fun h => ?_, fun h => ?_, fun h => ?_, fun h => ?_, fun h => ?_,
    fun h => ?_, nofun⟩
  case refine_1 | refine_2 => rw [whole_of_mask h]; exact ⟨_, rfl⟩
  case refine_7 => obtain ⟨hf, hn⟩ := fieldF_fieldN_of_mask h; exact ⟨_, by simp only [decode, hf, hn]; rfl⟩
  all_goals exact ⟨_, by simp only [decode, fieldF_of_mask h]; rfl⟩

/-- A word that a row of families 0x8 and 0x9 accepts decodes. -/
theorem decode_ok_of_rowsAlu {w : Word} : ∀ row ∈ opcodeRowsAlu, row.accepts w = true → ∃ i, decode w = .ok i := by
  simp only [opcodeRowsAlu, List.forall_mem_cons, OpcodeRow.accepts, beq_iff_eq]
  refine ⟨fun h => ?_, fun h => ?_, fun h => ?_, fun h => ?_, fun h => ?_, fun h => ?_, fun h => ?_, fun h => ?_,
    fun h => ?_, fun h => ?_, nofun⟩
  all_goals
    obtain ⟨hf, hn⟩ := fieldF_fieldN_of_mask h
    exact ⟨_, by simp only [decode, decodeFamily8, hf, hn]; rfl⟩

/-- A word that a row of families 0xA to 0xF accepts decodes. -/
theorem decode_ok_of_rowsHigh {w : Word} : ∀ row ∈ opcodeRowsHigh, row.accepts w = true → ∃ i, decode w = .ok i := by
  simp only [opcodeRowsHigh, List.forall_mem_cons, OpcodeRow.accepts, beq_iff_eq]
  refine ⟨fun h => ?_, fun h => ?_, fun h => ?_, fun h => ?_, fun h => ?_, fun h => ?_, fun h => ?_, fun h => ?_,
    fun h => ?_, fun h => ?_, fun h => ?_, fun h => ?_, fun h => ?_, fun h => ?_, fun h => ?_, nofun⟩
  case refine_1 | refine_2 | refine_3 | refine_4 => exact ⟨_, by simp only [decode, fieldF_of_mask h]; rfl⟩
  all_goals
    obtain ⟨hf, hn⟩ := fieldF_fieldNn_of_mask h
    exact ⟨_, by simp only [decode, decodeFamilyE, decodeFamilyF, hf, hn]; rfl⟩

theorem decode_ok_of_accepts {w : Word} {row : OpcodeRow} (hrow : row ∈ opcodeTable) (h : row.accepts w = true) :
    ∃ i, decode w = .ok i := by
  simp only [opcodeTable, List.mem_append] at hrow
  obtain (hlow | halu) | hhigh := hrow
  · exact decode_ok_of_rowsLow row hlow h
  · exact decode_ok_of_rowsAlu row halu h
  · exact decode_ok_of_rowsHigh row hhigh h

/-- A word that decodes is accepted by the row of its instruction's mnemonic. -/
theorem accepted_of_decode {w : Word} {i : Instr} (h : decode w = .ok i) :
    ∃ row ∈ opcodeTable, row.mnemonic = i.mnemonic ∧ row.accepts w = true :=
  encodeOfDecodeGivesWord w i h ▸ encode_accepted i

/-- Settles O3: a word that decodes is an encoding, and a word that some row accepts decodes. -/
theorem decoderAgreesWithOpcodeTable : Obligations.DecoderAgreesWithOpcodeTable := fun w => by
  cases hd : decode w with
  | ok i => exact accepted_of_decode hd
  | error e =>
    intro row hrow
    by_contra haccepts
    obtain ⟨i, hi⟩ := decode_ok_of_accepts hrow (Bool.eq_true_of_not_eq_false haccepts)
    cases hd.symm.trans hi

/-- A word that is no instruction by the table is rejected by the decoder (R80). -/
theorem decode_error_of_not_legalWord {w : Word} (h : legalWord w = false) : ∃ e, decode w = .error e := by
  cases hd : decode w with
  | error e => exact ⟨e, rfl⟩
  | ok i =>
    obtain ⟨row, hrow, -, haccepts⟩ := accepted_of_decode hd
    exact absurd haccepts (by simpa using List.any_eq_false.1 h row hrow)

/-! ### Families 0, 5 and 9 -/

theorem formNnn_inj {f : Nibble} {a b : Addr12} : formNnn f a = formNnn f b ↔ a = b :=
  ⟨fun h => by simpa using congrArg fieldNnn h, congrArg _⟩

/-- R75: family 0 selects on the whole word. -/
theorem decode_family0_toOption (nnn : Addr12) :
    (decode (formNnn 0x0#4 nnn)).toOption =
      if nnn = 0x0E0 then some .cls else if nnn = 0x0EE then some .ret else none := by
  have hd : decode (formNnn 0x0#4 nnn) = decodeFamily0 (formNnn 0x0#4 nnn) := by simp only [decode, fieldF_formNnn]
  have h0 : formNnn 0x0#4 nnn = 0x00E0#16 ↔ nnn = 0x0E0 := formNnn_inj (b := 0x0E0)
  have h1 : formNnn 0x0#4 nnn = 0x00EE#16 ↔ nnn = 0x0EE := formNnn_inj (b := 0x0EE)
  simp only [hd, decodeFamily0, h0, h1]
  split_ifs <;> rfl

/-- R76: families 5 and 9 have `n` = 0. -/
theorem decode_family5_toOption (x y n : Nibble) :
    (decode (formXyn 0x5#4 x y n)).toOption = if n = 0x0 then some (.seVxVy x y) else none := by
  simp only [decode, fieldF_formXyn, fieldN_formXyn, fieldX_formXyn, fieldY_formXyn, BitVec.ofNat_eq_ofNat]
  split_ifs <;> rfl

theorem decode_family9_toOption (x y n : Nibble) :
    (decode (formXyn 0x9#4 x y n)).toOption = if n = 0x0 then some (.sneVxVy x y) else none := by
  simp only [decode, fieldF_formXyn, fieldN_formXyn, fieldX_formXyn, fieldY_formXyn, BitVec.ofNat_eq_ofNat]
  split_ifs <;> rfl

/-- Settles O5: the whole word in family 0, the sub-opcode `n` in families 5 and 9. -/
theorem familiesZeroFiveNineSelectInstr : Obligations.FamiliesZeroFiveNineSelectInstr :=
  ⟨decode_family0_toOption, decode_family5_toOption, decode_family9_toOption⟩

/-- Settles O6: seven closed words. -/
theorem specWordsDecode : Obligations.SpecWordsDecode := by
  unfold Obligations.SpecWordsDecode
  decide

end Sys2Proof
end

section
/-! Proofs about what each instruction leaves unchanged (10_state.md section 2 to 5; 20_memory.md section 1): one case
analysis over the instructions says which parts and registers stay, what VF can be, and which fault can come. -/

namespace Sys2Proof.Machine

/-! ### The parts of two states that agree field by field -/

/-- The parts outside a list are the same when their fields are. -/
theorem Part.same_of_fields {s t : State} {ps : List Part} {p : Part} (hp : p ∉ ps)
    (hv : Part.v ∈ ps ∨ t.v = s.v := by simp) (hi : Part.i ∈ ps ∨ t.i = s.i := by simp)
    (hsp : Part.sp ∈ ps ∨ t.sp = s.sp := by simp) (hstack : Part.stack ∈ ps ∨ t.stack = s.stack := by simp)
    (hdt : Part.dt ∈ ps ∨ t.dt = s.dt := by simp) (hst : Part.st ∈ ps ∨ t.st = s.st := by simp)
    (hmem : Part.mem ∈ ps ∨ t.mem = s.mem ∧ t.cfg = s.cfg := by simp)
    (hreq : Part.requests ∈ ps ∨ t.requests = s.requests := by simp) :
    Part.Same s t p := by
  cases p with
  | v => exact State.readV_congr (hv.resolve_left hp)
  | i => exact hi.resolve_left hp
  | sp => exact hsp.resolve_left hp
  | stack => exact fun k => by rw [hstack.resolve_left hp]
  | dt => exact hdt.resolve_left hp
  | st => exact hst.resolve_left hp
  | mem =>
    obtain ⟨hm, hc⟩ := hmem.resolve_left hp
    exact State.readByte_congr hm hc
  | requests => exact hreq.resolve_left hp

/-! ### The instructions with a check of their own -/

section
variable {s : State}

theorem exec_ret_of_pos (h : 0 < s.sp.val) :
    exec .ret s = .next { s with pc := s.stack[s.sp.val - 1]'(by omega), sp := ⟨s.sp.val - 1, by omega⟩,
                                 status := some .ok } := by
  simp [exec, execRet, State.pop_some s h, complete]

theorem exec_ret_of_zero (h : s.sp.val = 0) :
    exec .ret s = .next (enterFault (boundsRecord .stackUnderflow s .ret none) s) := by
  simp [exec, execRet, State.pop_none s h, raiseFault]

theorem exec_callNnn_of_lt (nnn : Addr12) (h : s.sp.val < 16) :
    exec (.callNnn nnn) s = .next { s with pc := zext12 nnn, sp := ⟨s.sp.val + 1, by omega⟩,
                                           stack := s.stack.set s.sp.val s.pcNext h, status := some .ok } := by
  simp [exec, execCallNnn, State.push_some s _ h, complete]

theorem exec_callNnn_of_full (nnn : Addr12) (h : s.sp.val = 16) :
    exec (.callNnn nnn) s = .next (enterFault (boundsRecord .stackOverflow s (.callNnn nnn) none) s) := by
  simp [exec, execCallNnn, State.push_none s _ h, raiseFault]

theorem exec_drwVxVyN_of_ok {x y n : Nibble} {rows : List Byte} (h : s.memRead (s.dataAddr 0) n.toNat = .ok rows) :
    exec (.drwVxVyN x y n) s =
      complete ((s.request (.draw (s.readV x) (s.readV y) rows)).writeVF (flagByte (drawAnswer s.answers rows)))
        s.pcNext := by
  simp [exec, execDrwVxVyN, h]

theorem exec_drwVxVyN_of_error {x y n : Nibble} {a : Nat} (h : s.memRead (s.dataAddr 0) n.toNat = .error a) :
    exec (.drwVxVyN x y n) s = .next (enterFault (boundsRecord .memRead s (.drwVxVyN x y n) (some a)) s) := by
  simp [exec, execDrwVxVyN, h, raiseFault]

theorem exec_ldVxMi_of_ok {x : Nibble} {bytes : List Byte}
    (h : s.memRead (s.dataAddr 0) (x.toNat + 1) = .ok bytes) :
    exec (.ldVxMi x) s = complete (s.loadRegs 0 bytes) s.pcNext := by
  simp [exec, execLdVxMi, h]

theorem exec_ldVxMi_of_error {x : Nibble} {a : Nat} (h : s.memRead (s.dataAddr 0) (x.toNat + 1) = .error a) :
    exec (.ldVxMi x) s = .next (enterFault (boundsRecord .memRead s (.ldVxMi x) (some a)) s) := by
  simp [exec, execLdVxMi, h, raiseFault]

theorem exec_ldBVx_of_ok {x : Nibble} {t : State} (h : s.memWrite (s.dataAddr 0) (bcdDigits (s.readV x)) = .ok t) :
    exec (.ldBVx x) s = complete t s.pcNext := by
  simp [exec, execLdBVx, h]

theorem exec_ldBVx_of_error {x : Nibble} {a : Nat}
    (h : s.memWrite (s.dataAddr 0) (bcdDigits (s.readV x)) = .error a) :
    exec (.ldBVx x) s = .next (enterFault (boundsRecord .memWrite s (.ldBVx x) (some a)) s) := by
  simp [exec, execLdBVx, h, raiseFault]

theorem exec_ldMiVx_of_ok {x : Nibble} {t : State} (h : s.memWrite (s.dataAddr 0) (s.regsUpTo x) = .ok t) :
    exec (.ldMiVx x) s = complete t s.pcNext := by
  simp [exec, execLdMiVx, h]

theorem exec_ldMiVx_of_error {x : Nibble} {a : Nat} (h : s.memWrite (s.dataAddr 0) (s.regsUpTo x) = .error a) :
    exec (.ldMiVx x) s = .next (enterFault (boundsRecord .memWrite s (.ldMiVx x) (some a)) s) := by
  simp [exec, execLdMiVx, h, raiseFault]

theorem exec_ldVxK_of_some {x k : Nibble} (h : s.answers.keyEvent = some k) :
    exec (.ldVxK x) s = complete (s.writeV x (k.zeroExtend 8)) s.pcNext := by
  simp only [exec, execLdVxK, h]
  rfl

theorem exec_ldVxK_of_none {x : Nibble} (h : s.answers.keyEvent = none) :
    exec (.ldVxK x) s = .next { s with status := some .awaitingInput } := by
  simp only [exec, execLdVxK, h]
  rfl

end

/-- A read that answers has as many bytes as were asked for. -/
theorem State.length_of_memRead {s : State} {a n : Nat} {bytes : List Byte} (h : s.memRead a n = .ok bytes) :
    bytes.length = n := by
  unfold State.memRead at h
  split at h
  · cases h
  · cases h; simp

/-! ### The frame of every instruction -/

/-- What an instruction that raises no fault leaves as it was, and what VF is after one that sets it. -/
structure Framed (i : Instr) (s t : State) : Prop where
  runState : t.runState = s.runState
  parts : ∀ p, ¬ writesPart i p → Part.Same s t p
  regs : ∀ r, ¬ writesReg i r → t.readV r = s.readV r
  flag : setsVF i = true → t.readV 0xF = 0 ∨ t.readV 0xF = 1

section
variable {i : Instr} {s : State} {x : Nibble} {b : Byte} {w : Word}

/-- An instruction that writes no register. -/
theorem Framed.of_same {t : State} {ps : List Part} (hps : ∀ p ∈ ps, writesPart i p ∧ p ≠ .v)
    (hflag : setsVF i = false) (hrun : t.runState = s.runState) (hsame : ∀ p, p ∉ ps → Part.Same s t p) :
    Framed i s t where
  runState := hrun
  parts p hp := hsame p fun hmem => hp (hps p hmem).1
  regs r _ := hsame .v (fun hmem => (hps .v hmem).2 rfl) r
  flag h := by simp [hflag] at h

/-- An instruction whose meaning is one register write. -/
theorem Framed.of_writeV (hv : writesPart i .v) (hx : writesReg i x) (hflag : setsVF i = false) :
    Framed i s { s.writeV x b with pc := w, status := some .ok } where
  runState := rfl
  parts p hp := Part.same_of_fields (ps := [.v]) fun hmem => hp (List.mem_singleton.1 hmem ▸ hv)
  regs r hr := s.readV_writeV_other b fun h => hr (h ▸ hx)
  flag h := by simp [hflag] at h

/-- An instruction whose meaning is a register write and then the flag. -/
theorem Framed.of_writeV_writeVF {f : Bool} (hv : writesPart i .v) (hx : writesReg i x) (hF : writesReg i 0xF) :
    Framed i s { (s.writeV x b).writeVF (flagByte f) with pc := w, status := some .ok } where
  runState := rfl
  parts p hp := Part.same_of_fields (ps := [.v]) fun hmem => hp (List.mem_singleton.1 hmem ▸ hv)
  regs r hr := by
    have hrF : r ≠ 0xF := fun h => hr (h ▸ hF)
    have hrx : r ≠ x := fun h => hr (h ▸ hx)
    exact ((s.writeV x b).readV_writeV_other _ hrF).trans (s.readV_writeV_other b hrx)
  flag _ := ((s.writeV x b).readV_writeV_same flagReg (flagByte f)).symm ▸ flagByte_zero_or_one f

end

/-- Every instruction takes a next state within its frame, or enters the fault of the kind it has. -/
theorem exec_framed_or_fault (i : Instr) (s : State) :
    ∃ t, exec i s = .next t ∧
      (Framed i s t ∨ ∃ kind addr, raisesKind i = some kind ∧ t = enterFault (boundsRecord kind s i addr) s) := by
  cases i with
  | jpNnn | jpV0Nnn | seVxNn | sneVxNn | seVxVy | sneVxVy | skpVx | sknpVx =>
    exact ⟨_, rfl, .inl (.of_same (ps := []) nofun rfl rfl fun _ => Part.same_of_fields)⟩
  | ldINnn | addIVx | ldFVx =>
    exact ⟨_, rfl, .inl (.of_same (ps := [.i]) (by simp [writesPart]) rfl rfl fun _ => Part.same_of_fields)⟩
  | cls =>
    exact ⟨_, rfl, .inl (.of_same (ps := [.requests]) (by simp [writesPart]) rfl rfl fun _ => Part.same_of_fields)⟩
  | ldDtVx =>
    exact ⟨_, rfl, .inl (.of_same (ps := [.dt]) (by simp [writesPart]) rfl rfl fun _ => Part.same_of_fields)⟩
  | ldStVx =>
    exact ⟨_, rfl, .inl (.of_same (ps := [.st]) (by simp [writesPart]) rfl rfl fun _ => Part.same_of_fields)⟩
  | ldVxNn | addVxNn | ldVxVy | orVxVy | andVxVy | xorVxVy | rndVxNn | ldVxDt =>
    exact ⟨_, rfl, .inl (.of_writeV rfl rfl rfl)⟩
  | addVxVy | subVxVy | shrVxVy | subnVxVy | shlVxVy =>
    exact ⟨_, rfl, .inl (.of_writeV_writeVF rfl (.inl rfl) (.inr rfl))⟩
  | ldVxK x =>
    cases hk : s.answers.keyEvent with
    | some k => exact ⟨_, exec_ldVxK_of_some hk, .inl (.of_writeV rfl rfl rfl)⟩
    | none =>
      exact ⟨_, exec_ldVxK_of_none hk, .inl (.of_same (ps := []) nofun rfl rfl fun _ => Part.same_of_fields)⟩
  | ret =>
    rcases Nat.eq_zero_or_pos s.sp.val with h | h
    · exact ⟨_, exec_ret_of_zero h, .inr ⟨_, _, rfl, rfl⟩⟩
    · exact ⟨_, exec_ret_of_pos h, .inl
        (.of_same (ps := [.sp]) (by simp [writesPart]) rfl rfl fun _ => Part.same_of_fields)⟩
  | callNnn nnn =>
    by_cases h : s.sp.val < 16
    · exact ⟨_, exec_callNnn_of_lt nnn h, .inl
        (.of_same (ps := [.sp, .stack]) (by simp [writesPart]) rfl rfl fun _ => Part.same_of_fields)⟩
    · exact ⟨_, exec_callNnn_of_full nnn (by omega), .inr ⟨_, _, rfl, rfl⟩⟩
  | drwVxVyN x y n =>
    cases h : s.memRead (s.dataAddr 0) n.toNat with
    | error a => exact ⟨_, exec_drwVxVyN_of_error h, .inr ⟨_, _, rfl, rfl⟩⟩
    | ok rows => exact ⟨_, exec_drwVxVyN_of_ok h, .inl
        { runState := rfl
          parts := fun p hp => Part.same_of_fields (ps := [.requests, .v]) (by simpa [writesPart] using hp)
          regs := fun r hr => (s.request _).readV_writeV_other _ hr
          flag := fun _ => ((s.request _).readV_writeV_same flagReg _).symm ▸ flagByte_zero_or_one _ }⟩
  | ldVxMi x =>
    cases h : s.memRead (s.dataAddr 0) (x.toNat + 1) with
    | error a => exact ⟨_, exec_ldVxMi_of_error h, .inr ⟨_, _, rfl, rfl⟩⟩
    | ok bytes =>
      have hlen := State.length_of_memRead h
      exact ⟨_, exec_ldVxMi_of_ok h, .inl
        { runState := by simp
          parts := fun p hp => Part.same_of_fields (ps := [.v]) (by simpa [writesPart] using hp)
          regs := fun r hr => (s.readV_loadRegs 0 bytes (by omega) r).trans
            (dif_neg (by simp only [writesReg] at hr; omega))
          flag := nofun }⟩
  | ldBVx x =>
    cases h : s.memWrite (s.dataAddr 0) (bcdDigits (s.readV x)) with
    | error a => exact ⟨_, exec_ldBVx_of_error h, .inr ⟨_, _, rfl, rfl⟩⟩
    | ok t =>
      obtain ⟨rfl, -⟩ := State.memWrite_cases h
      exact ⟨_, exec_ldBVx_of_ok h, .inl
        (.of_same (ps := [.mem]) (by simp [writesPart]) rfl (by simp) fun _ => Part.same_of_fields)⟩
  | ldMiVx x =>
    cases h : s.memWrite (s.dataAddr 0) (s.regsUpTo x) with
    | error a => exact ⟨_, exec_ldMiVx_of_error h, .inr ⟨_, _, rfl, rfl⟩⟩
    | ok t =>
      obtain ⟨rfl, -⟩ := State.memWrite_cases h
      exact ⟨_, exec_ldMiVx_of_ok h, .inl
        (.of_same (ps := [.mem]) (by simp [writesPart]) rfl (by simp) fun _ => Part.same_of_fields)⟩

end Sys2Proof.Machine
end

section
/-! Proofs of the rules that hold of every instruction (00_scope.md section 3; 10_state.md section 2 to 5;
40_fetch_decode_execute.md section 1; 60_exceptions.md section 1). -/

namespace Sys2Proof.Machine

/-! ### What follows from the shape of a next state -/

/-- What a next state of an instruction can be: completed, waiting, or halted by a fault about itself. -/
theorem exec_next_cases {i : Instr} {s t : State} (h : exec i s = .next t) :
    (Completed s t ∧ t.status = some .ok) ∨
    (t = { s with status := some .awaitingInput } ∧ ∃ x, i = .ldVxK x) ∨
    (∃ kind addr, t = enterFault (boundsRecord kind s i addr) s) := by
  obtain ⟨u, hu, hcases⟩ := exec_cases i s
  cases hu.symm.trans h
  exact hcases

/-- No instruction changes the parameters, the driver's list or the count of operations. -/
theorem exec_keeps_environment {i : Instr} {s t : State} (h : exec i s = .next t) :
    t.cfg = s.cfg ∧ t.pending = s.pending ∧ t.draws = s.draws := by
  obtain ⟨hc, -⟩ | ⟨rfl, -⟩ | ⟨kind, addr, rfl⟩ := exec_next_cases h
  · exact ⟨hc.cfg, hc.pending, hc.draws⟩
  · exact ⟨rfl, rfl, rfl⟩
  · exact ⟨rfl, rfl, rfl⟩

theorem runInstr_keeps_cfg {s t : State} (h : runInstr s = .next t) : t.cfg = s.cfg := by
  cases hr : s.runState with
  | halted =>
    obtain ⟨r, -, rfl⟩ := runInstr_halted hr h
    rfl
  | running =>
    obtain ⟨r, -, hf⟩ | ⟨i, -, he, -⟩ := runInstr_cases s hr
    · cases hf.symm.trans h
      rfl
    · exact (exec_keeps_environment (he.symm.trans h)).1

theorem step_keeps_cfg {s t : State} (h : step s = .next t) : t.cfg = s.cfg := by
  cases hop : s.nextOp with
  | reset => cases (step_reset hop).symm.trans h; rfl
  | load bytes => cases (step_load hop).symm.trans h; exact loadFrom_cfg s 0 bytes
  | tick => cases (step_tick hop).symm.trans h; rfl
  | step e =>
    obtain ⟨u, hu, rfl⟩ := mapNext_eq_next ((step_step (DriverOp.isStep_iff.2 ⟨e, hop⟩)).symm.trans h)
    exact runInstr_keeps_cfg (t := u) hu

/-- Settles O22: an instruction by the shape of its next state, a step by its operation. -/
theorem parametersNeverChange : Obligations.ParametersNeverChange :=
  ⟨fun _ _ _ h => exec_keeps_environment h, fun _ _ h => step_keeps_cfg h⟩

/-- Settles O23: the three ends of an instruction are the three statuses. -/
theorem execAnswersNextWithStatus : Obligations.ExecAnswersNextWithStatus := fun i s => by
  obtain ⟨t, ht, hcases⟩ := exec_cases i s
  refine ⟨t, ht, ?_⟩
  obtain ⟨hc, hok⟩ | ⟨rfl, hx⟩ | ⟨kind, addr, rfl⟩ := hcases
  · exact .inl ⟨hok, hc.runState, hc.fault⟩
  · exact .inr (.inl ⟨rfl, hx, rfl⟩)
  · exact .inr (.inr ⟨_, rfl, rfl, rfl⟩)

/-! ### What follows from the frame -/

/-- A next state is within the frame, or is the entry of a fault of the instruction's kind. -/
theorem framed_or_fault {i : Instr} {s t : State} (h : exec i s = .next t) :
    Framed i s t ∨ ∃ r : FaultRecord, raisesKind i = some r.kind ∧ t = enterFault r s := by
  obtain ⟨u, hu, hcases⟩ := exec_framed_or_fault i s
  cases hu.symm.trans h
  obtain hframed | ⟨kind, addr, hkind, rfl⟩ := hcases
  · exact .inl hframed
  · exact .inr ⟨_, hkind, rfl⟩

/-- Settles O24: the frame, and a fault writes no register. -/
theorem onlyNamedInstrsWriteRegs : Obligations.OnlyNamedInstrsWriteRegs := fun i s t r h hr => by
  obtain hframed | ⟨_, -, rfl⟩ := framed_or_fault h
  · exact hframed.regs r hr
  · rfl

/-- Settles O25: the frame, and a fault writes no part. -/
theorem onlyNamedInstrsWriteParts : Obligations.OnlyNamedInstrsWriteParts := fun i s t p h hp => by
  obtain hframed | ⟨_, -, rfl⟩ := framed_or_fault h
  · exact hframed.parts p hp
  · exact Part.same_of_fields (ps := []) (by simp)

/-- Settles O26: only a fault halts a running core, and it has the instruction's kind. -/
theorem onlyNamedInstrsFault : Obligations.OnlyNamedInstrsFault := fun i s t hrun h hhalt => by
  obtain hframed | ⟨r, hkind, rfl⟩ := framed_or_fault h
  · cases hrun.symm.trans (hframed.runState.symm.trans hhalt)
  · exact ⟨r, rfl, hkind⟩

/-- Settles O28: a fault leaves no running core, and within the frame VF is the flag or as before. -/
theorem vfIsAFlagAfterVFSetters : Obligations.VFIsAFlagAfterVFSetters := fun i s t _ h hrun => by
  obtain hframed | ⟨r, -, rfl⟩ := framed_or_fault h
  · exact ⟨hframed.flag, fun _ hF => hframed.regs 0xF hF⟩
  · cases hrun

/-! ### The collaborators' answers -/

/-- The state with another list of the driver and another count: other answers (log 3, log 4). -/
def State.withDriver (s : State) (ops : List DriverOp) (n : Nat) : State := { s with pending := ops, draws := n }

theorem State.storeBytes_withDriver (s : State) (ops : List DriverOp) (n a : Nat) (bs : List Byte) :
    (s.withDriver ops n).storeBytes a bs = (s.storeBytes a bs).withDriver ops n := by
  induction bs generalizing s a with
  | nil => rfl
  | cons b bs ih => exact ih (s.storeByte a b) (a + 1)

theorem State.loadRegs_withDriver (s : State) (ops : List DriverOp) (n k : Nat) (bs : List Byte) :
    (s.withDriver ops n).loadRegs k bs = (s.loadRegs k bs).withDriver ops n := by
  induction bs generalizing s k with
  | nil => rfl
  | cons b bs ih => exact ih (s.writeV (BitVec.ofNat 4 k) b) (k + 1)

theorem State.memWrite_withDriver (s : State) (ops : List DriverOp) (n a : Nat) (bs : List Byte) :
    (s.withDriver ops n).memWrite a bs = (s.memWrite a bs).map (·.withDriver ops n) := by
  have hcheck : firstFailing (writeForbidden (s.withDriver ops n).cfg) a bs.length =
      firstFailing (writeForbidden s.cfg) a bs.length := rfl
  unfold State.memWrite
  rw [hcheck]
  cases firstFailing (writeForbidden s.cfg) a bs.length with
  | none => exact congrArg _ (s.storeBytes_withDriver ops n a bs)
  | some bad => rfl

theorem exec_withDriver {i : Instr} (hi : usesAnswer i = false) (s : State) (ops : List DriverOp) (n : Nat) :
    exec i (s.withDriver ops n) = mapNext (·.withDriver ops n) (exec i s) := by
  cases i with
  | rndVxNn | drwVxVyN | skpVx | sknpVx | ldVxK => cases hi
  | ret =>
    rcases Nat.eq_zero_or_pos s.sp.val with h | h
    · rw [exec_ret_of_zero h, exec_ret_of_zero (s := s.withDriver ops n) h]; rfl
    · rw [exec_ret_of_pos h, exec_ret_of_pos (s := s.withDriver ops n) h]; rfl
  | callNnn nnn =>
    by_cases h : s.sp.val < 16
    · rw [exec_callNnn_of_lt nnn h, exec_callNnn_of_lt (s := s.withDriver ops n) nnn h]; rfl
    · have h16 : s.sp.val = 16 := by omega
      rw [exec_callNnn_of_full nnn h16, exec_callNnn_of_full (s := s.withDriver ops n) nnn h16]; rfl
  | ldBVx x =>
    have hw := s.memWrite_withDriver ops n (s.dataAddr 0) (bcdDigits (s.readV x))
    cases h : s.memWrite (s.dataAddr 0) (bcdDigits (s.readV x)) with
    | ok t => rw [exec_ldBVx_of_ok h, exec_ldBVx_of_ok (hw.trans (by rw [h]; rfl))]; rfl
    | error a => rw [exec_ldBVx_of_error h, exec_ldBVx_of_error (hw.trans (by rw [h]; rfl))]; rfl
  | ldMiVx x =>
    have hw := s.memWrite_withDriver ops n (s.dataAddr 0) (s.regsUpTo x)
    cases h : s.memWrite (s.dataAddr 0) (s.regsUpTo x) with
    | ok t => rw [exec_ldMiVx_of_ok h, exec_ldMiVx_of_ok (hw.trans (by rw [h]; rfl))]; rfl
    | error a => rw [exec_ldMiVx_of_error h, exec_ldMiVx_of_error (hw.trans (by rw [h]; rfl))]; rfl
  | ldVxMi x =>
    cases h : s.memRead (s.dataAddr 0) (x.toNat + 1) with
    | ok bytes =>
      rw [exec_ldVxMi_of_ok h, exec_ldVxMi_of_ok (s := s.withDriver ops n) h, State.loadRegs_withDriver]; rfl
    | error a => rw [exec_ldVxMi_of_error h, exec_ldVxMi_of_error (s := s.withDriver ops n) h]; rfl
  | _ => rfl

/-- Settles O27: no register, memory byte or check depends on the driver's list or the count. -/
theorem onlyNamedInstrsUseAnswers : Obligations.OnlyNamedInstrsUseAnswers :=
  fun _ s ops n hi => exec_withDriver hi s ops n

end Sys2Proof.Machine
end

section
/-! Proofs about one operation of the driver (40_fetch_decode_execute.md section 3; 44_timers_external.md section 3 and
4; 60_exceptions.md; 70_reset_and_hazards.md): what a STEP does in each phase, and TICK, LOAD and RESET. -/

namespace Sys2Proof.Machine

/-! ### The phases of a STEP -/

section
variable {s t : State}

theorem runInstr_of_fetch_error {r : FaultRecord} (hr : s.runState = .running) (hf : fetch s = .error r) :
    runInstr s = .next (enterFault r s) := by
  simp [runInstr, hr, hf, raiseFault]

theorem runInstr_of_decode_error {op : Word} {e : DecodeReject} (hr : s.runState = .running) (hf : fetch s = .ok op)
    (hd : decode op = .error e) : runInstr s = .next (enterFault (decodeRecord s.pc op) s) := by
  simp [runInstr, hr, hf, hd, raiseFault]

theorem runInstr_of_decode_ok {op : Word} {i : Instr} (hr : s.runState = .running) (hf : fetch s = .ok op)
    (hd : decode op = .ok i) : runInstr s = exec i s := by
  simp [runInstr, hr, hf, hd]

theorem runInstr_of_halted {r : FaultRecord} (hr : s.runState = .halted) (hf : s.fault = some r) :
    runInstr s = .next { s with status := some (.fault r) } := by
  rw [← haltedStep_some hf, runInstr, hr]

/-- A STEP whose phases answer a next state: that state with the STEP taken off the list and counted. -/
theorem step_of_runInstr (hs : StepIsNext s) (h : runInstr s = .next t) : step s = .next (retireOp t) := by
  rw [step_step hs, h, mapNext_next]

/-- What a STEP that takes a next state ran. -/
theorem runInstr_of_step (hs : StepIsNext s) (h : step s = .next t) : ∃ u, runInstr s = .next u ∧ t = retireOp u :=
  mapNext_eq_next ((step_step hs).symm.trans h)

theorem not_stepIsNext {op : DriverOp} (h : s.nextOp = op) (hop : op.isStep = false) : ¬ StepIsNext s := by
  rw [StepIsNext, h, hop]; decide

theorem stepIsNext_of_step {e : Env} (h : s.nextOp = .step e) : StepIsNext s := DriverOp.isStep_iff.2 ⟨e, h⟩

end

/-- Settles O7: the fetch is in bounds and its word decodes, so the STEP is exec of the instruction. -/
theorem stepRunsDecodedInstr : Obligations.StepRunsDecodedInstr := fun s i hrun hs hpc hd => by
  rw [step_step hs, runInstr_of_decode_ok hrun (fetch_ok hpc) hd]
  cases exec i s <;> rfl

/-- Settles O8: the fetch answers its record, which the core enters. -/
theorem fetchOutOfBoundsHalts : Obligations.FetchOutOfBoundsHalts := fun s hrun hs hpc =>
  ⟨enterFault (fetchRecord s.pc) s,
    step_of_runInstr hs (runInstr_of_fetch_error hrun (fetch_error hpc)), rfl⟩

/-- Settles O9: a word that no row accepts is rejected by the decoder, and the core enters the record of the word. -/
theorem illegalWordHalts : Obligations.IllegalWordHalts := by
  rintro s w hrun hs hpc rfl hillegal
  obtain ⟨e, he⟩ := decode_error_of_not_legalWord hillegal
  exact ⟨enterFault (decodeRecord s.pc _) s,
    step_of_runInstr hs (runInstr_of_decode_error hrun (fetch_ok hpc) he), rfl⟩

/-- Settles O10: HALTED answers the record it holds. -/
theorem haltedStepRepeatsFault : Obligations.HaltedStepRepeatsFault := fun _ _ hhalt hfault hs =>
  step_of_runInstr hs (runInstr_of_halted hhalt hfault)

/-- A STEP of a running core that halts it entered a fault about PC. -/
theorem enterFault_of_runInstr_halts {s t : State} (hrun : s.runState = .running) (h : runInstr s = .next t)
    (hhalt : t.runState = .halted) : ∃ r : FaultRecord, r.pc = s.pc ∧ t = enterFault r s := by
  obtain ⟨r, hpc, hf⟩ | ⟨i, -, he, -⟩ := runInstr_cases s hrun
  · cases hf.symm.trans h
    exact ⟨r, hpc, rfl⟩
  · obtain ⟨hc, -⟩ | ⟨rfl, -⟩ | ⟨kind, addr, rfl⟩ := exec_next_cases (he.symm.trans h)
    · cases hrun.symm.trans (hc.runState.symm.trans hhalt) -- it completed, and still runs
    · cases hrun.symm.trans hhalt -- it waits, and still runs
    · exact ⟨_, rfl, rfl⟩

/-- Settles O11: the core halts only by entering a fault about PC. -/
theorem faultsArePrecise : Obligations.FaultsArePrecise := fun s t hrun hs h hhalt => by
  obtain ⟨u, hu, rfl⟩ := runInstr_of_step hs h
  obtain ⟨r, hpc, rfl⟩ := enterFault_of_runInstr_halts hrun hu hhalt
  exact ⟨r, hpc, rfl⟩

/-- Settles O12: by the operation; only RESET writes the run state of a halted core. -/
theorem onlyResetLeavesHalted : Obligations.OnlyResetLeavesHalted := fun s t hhalt h => by
  cases hop : s.nextOp with
  | reset =>
    cases (step_reset hop).symm.trans h
    exact ⟨by simp, fun hne => absurd rfl hne, fun hs => absurd hs (not_stepIsNext hop rfl)⟩
  | load bytes =>
    cases (step_load hop).symm.trans h
    exact ⟨by simp [performLoad, hhalt], fun _ => loadFrom_fault s 0 bytes,
      fun hs => absurd hs (not_stepIsNext hop rfl)⟩
  | tick =>
    cases (step_tick hop).symm.trans h
    exact ⟨by simp [hhalt], fun _ => rfl, fun hs => absurd hs (not_stepIsNext hop rfl)⟩
  | step e =>
    obtain ⟨u, hu, rfl⟩ := runInstr_of_step (stepIsNext_of_step hop) h
    obtain ⟨r, -, rfl⟩ := runInstr_halted hhalt hu
    exact ⟨by simp [hhalt], fun _ => rfl, fun _ => rfl⟩

/-! ### TICK -/

/-- Settles O13: the two timers, each floored at 0. -/
theorem tickDecrementsTimers : Obligations.TickDecrementsTimers := fun s hop =>
  ⟨_, step_tick hop, toNat_tickTimer s.dt, toNat_tickTimer s.st, rfl⟩

/-- The state n TICKs later, with the TICKs off the list and counted. -/
theorem stateAfter_replicate_tick {s : State} {n : Nat} {ops : List DriverOp}
    (h : s.pending = List.replicate n .tick ++ ops) :
    ∃ dt st, stateAfter n s = some { s with dt := dt, st := st, pending := ops, draws := s.draws + n } ∧
      dt.toNat = s.dt.toNat - n ∧ st.toNat = s.st.toNat - n := by
  induction n generalizing s with
  | zero => exact ⟨s.dt, s.st, by rw [← (show s.pending = ops by simpa using h)]; rfl, rfl, rfl⟩
  | succ n ih =>
    rw [List.replicate_succ, List.cons_append] at h
    have hop : s.nextOp = .tick := State.nextOp_cons h
    obtain ⟨dt, st, hafter, hdt, hst⟩ := ih (s := retireOp (performTick s)) (by simp [h])
    refine ⟨dt, st, ?_, ?_, ?_⟩
    · rw [stateAfter, step_tick hop]
      simpa [retireOp, performTick, Nat.add_assoc, Nat.add_comm 1 n] using hafter
    · rw [hdt, retireOp_dt, performTick_dt, toNat_tickTimer]; omega
    · rw [hst, retireOp_st, performTick_st, toNat_tickTimer]; omega

/-- Settles O59: by induction on the number of TICKs. -/
theorem anyNumberOfTicksFallBetweenSteps : Obligations.AnyNumberOfTicksFallBetweenSteps := fun s n ops h => by
  obtain ⟨dt, st, hafter, hdt, hst⟩ := stateAfter_replicate_tick h
  exact ⟨_, hafter, hdt, hst, rfl⟩

/-! ### LOAD -/

/-- Settles O15: the bytes by their place, and only memory is written. -/
theorem loadFillsProgramRegion : Obligations.LoadFillsProgramRegion := fun s bytes hop => by
  have horigin : origin = 0x200 := rfl
  have hsize : memSize = 4096 := rfl
  refine ⟨_, step_load hop, fun k b hk hlt => ?_, fun a ha => ?_, ?_⟩
  · obtain ⟨hlen, hb⟩ := List.getElem?_eq_some_iff.1 hk
    refine (readByte_loadFrom s 0 bytes (0x200 + k)).trans ((dif_pos (by omega)).trans ?_)
    simpa [horigin] using hb
  · exact (readByte_loadFrom s 0 bytes a).trans (dif_neg (by omega))
  · rw [performLoad, loadFrom_eq]; rfl

/-! ### RESET -/

/-- Memory after RESET is the reset contents (10_state.md R38). -/
theorem readByte_performReset (s : State) (a : Nat) : (performReset s).readByte a = s.cfg.resetByte a := rfl

theorem State.readV_resetWith (c : Config) (x : Nibble) : (State.resetWith c).readV x = 0 := by
  simp [State.readV, State.resetWith]

/-- Settles O16: every field is the reset state's but those that RESET keeps. -/
theorem resetRestoresPowerOn : Obligations.ResetRestoresPowerOn := fun s hop =>
  ⟨_, step_reset hop, State.readV_resetWith s.cfg, rfl, rfl, rfl, fun k => by simp, rfl, rfl, rfl, rfl,
    readByte_performReset s, rfl, rfl, rfl, rfl⟩

/-- Outside the font the reset state's memory is zero. -/
theorem readByte_reset_outside_font {a : Nat} (h : a < 0x050 ∨ 0x0A0 ≤ a) : State.reset.readByte a = 0 :=
  dif_neg (by simp only [State.reset, State.resetWith, Config.default]; omega)

/-- Settles O17: the fields by definition, the two glyphs by evaluation, the rest of memory outside the font. -/
theorem resetStateHasSpecValues : Obligations.ResetStateHasSpecValues :=
  ⟨rfl, rfl, rfl, State.readV_resetWith Config.default, rfl, rfl, rfl, rfl, rfl, by decide, by decide,
    fun _ h => readByte_reset_outside_font (.inr h), fun _ h => readByte_reset_outside_font (.inl h)⟩

/-! ### Self-loop and wait (70_reset_and_hazards.md section 5) -/

/-- A STEP with an instruction at PC that has a next state. -/
theorem step_of_instrAtPc {s t : State} {i : Instr} (hs : StepIsNext s) (hi : s.instrAtPc = some i)
    (h : exec i s = .next t) : step s = .next (retireOp t) :=
  step_of_runInstr hs ((runInstr_of_instrAtPc hi).2.trans h)

theorem instrAtPc_of_inSelfLoop {s : State} (h : inSelfLoop s = true) :
    ∃ nnn, s.instrAtPc = some (.jpNnn nnn) ∧ zext12 nnn = s.pc := by
  unfold inSelfLoop at h
  split at h
  case h_1 nnn hi => exact ⟨nnn, hi, BitVec.eq_of_toNat_eq ((toNat_zext12 nnn).trans (by simpa using h))⟩
  case h_2 => cases h

/-- Settles O44: the jump writes to PC what PC is. -/
theorem selfLoopChangesNothing : Obligations.SelfLoopChangesNothing := fun s hloop hs => by
  obtain ⟨nnn, hi, hpc⟩ := instrAtPc_of_inSelfLoop hloop
  rw [step_of_instrAtPc hs hi (complete_eq s (zext12 nnn)), hpc]
  rfl

/-- At an Fx0A the core waits exactly when the STEP brings no key event. -/
theorem waitingForKey_iff {s : State} {x : Nibble} (hi : s.instrAtPc = some (.ldVxK x)) (hs : StepIsNext s) :
    waitingForKey s = true ↔ s.answers.keyEvent = none := by
  obtain ⟨e, he⟩ := DriverOp.isStep_iff.1 hs
  simp [waitingForKey, hi, he, DriverOp.keyEvent, State.answers_of_step he]

/-- Settles O60: by whether the STEP brings a key event. -/
theorem waitingStepChangesNothing : Obligations.WaitingStepChangesNothing := fun s x hi hs => by
  have hiff := waitingForKey_iff hi hs
  refine ⟨hiff, fun hwait => step_of_instrAtPc hs hi (exec_ldVxK_of_none (hiff.1 hwait)), fun hwait => ?_⟩
  cases hk : s.answers.keyEvent with
  | none => exact absurd (hiff.2 hk) (by simp [hwait])
  | some k => exact ⟨_, step_of_instrAtPc hs hi (exec_ldVxK_of_some hk), rfl, rfl⟩

end Sys2Proof.Machine
end

section
/-! Proofs about the invariant (10_state.md section 4, 6, 8 and 9): reset has it, every operation of the driver keeps
it, and from it every operation takes a next state; and the canonical form of memory is one list for each memory. -/

namespace Sys2Proof.Machine

/-! ### Reset -/

theorem inv_resetWith {c : Config} (hc : c.wellFormed = true) : Inv (State.resetWith c) where
  cfgWellFormed := hc
  memCanonical := Memory.wf_nil c
  faultIffHalted := by simp [State.resetWith]
  faultPc := nofun
  pcBound := show (BitVec.ofNat 16 origin).toNat ≤ 0x10FE by decide
  stackBound k := by simp [State.resetWith]

/-- Settles O18: with the default parameters. -/
theorem resetSatisfiesInv : Obligations.ResetSatisfiesInv := inv_resetWith (by decide)

/-! ### Each way to a next state keeps the invariant -/

section
variable {s : State}

/-- Taking an operation off the list touches no field of the invariant. -/
theorem inv_retireOp (h : Inv s) : Inv (retireOp s) := { h with }

theorem inv_performTick (h : Inv s) : Inv (performTick s) := { h with }

/-- The status is no field of the invariant. -/
theorem inv_withStatus (h : Inv s) (r : Option Status) : Inv { s with status := r } := { h with }

theorem inv_performReset (h : Inv s) : Inv (performReset s) := { inv_resetWith h.cfgWellFormed with }

theorem inv_performLoad (h : Inv s) (bytes : List Byte) : Inv (performLoad bytes s) := by
  rw [performLoad, loadFrom_eq]
  exact { h with memCanonical := wf_loadFrom h.memCanonical 0 bytes }

/-- A fault about PC puts its record where the invariant asks for one. -/
theorem inv_enterFault (h : Inv s) {r : FaultRecord} (hr : r.pc = s.pc) : Inv (enterFault r s) :=
  { h with
    faultIffHalted := by simp
    faultPc := fun _ e => by cases e; exact hr }

/-- An instruction fetched from memory that completes: the address after it is at most 0x1000 and a skip's
at most 0x1002. -/
theorem inv_of_completed (h : Inv s) {t : State} (hc : Completed s t) (hrun : s.runState = .running)
    (hpc : s.pc.toNat + 1 < memSize) : Inv t where
  cfgWellFormed := hc.cfg ▸ h.cfgWellFormed
  memCanonical := hc.cfg ▸ hc.mem h.memCanonical
  faultIffHalted := by rw [hc.fault, hc.runState]; exact h.faultIffHalted
  faultPc r hr := by
    have hhalt := h.faultIffHalted.1 (by rw [← hc.fault, hr]; rfl)
    cases hrun.symm.trans hhalt
  pcBound := by
    have hsize : memSize = 4096 := rfl
    obtain e | e | e | e | ⟨k, e⟩ := hc.pc
    · rw [e]; exact h.pcBound
    · rw [e]; bv_omega
    · rw [e]; bv_omega
    · exact e
    · rw [e]; exact (h.stackBound k).trans (by decide)
  stackBound k := by
    have hsize : memSize = 4096 := rfl
    obtain e | e := hc.stack k
    · rw [e]; exact h.stackBound k
    · rw [e]; bv_omega

theorem inv_exec (h : Inv s) {i : Instr} {t : State} (hrun : s.runState = .running) (hpc : s.pc.toNat + 1 < memSize)
    (he : exec i s = .next t) : Inv t := by
  obtain ⟨hc, -⟩ | ⟨rfl, -⟩ | ⟨kind, addr, rfl⟩ := exec_next_cases he
  · exact inv_of_completed h hc hrun hpc
  · exact inv_withStatus h _
  · exact inv_enterFault h rfl

theorem inv_runInstr (h : Inv s) {t : State} (hr : runInstr s = .next t) : Inv t := by
  cases hs : s.runState with
  | halted =>
    obtain ⟨r, -, rfl⟩ := runInstr_halted hs hr
    exact inv_withStatus h _
  | running =>
    obtain ⟨r, hpc, hf⟩ | ⟨i, -, he, hpc⟩ := runInstr_cases s hs
    · cases hf.symm.trans hr
      exact inv_enterFault h hpc
    · exact inv_exec h hs hpc (he.symm.trans hr)

end

/-- Settles O19: by the operation. -/
theorem stepKeepsInv : Obligations.StepKeepsInv := fun s t h hstep => by
  cases hop : s.nextOp with
  | reset => cases (step_reset hop).symm.trans hstep; exact inv_retireOp (inv_performReset h)
  | load bytes => cases (step_load hop).symm.trans hstep; exact inv_retireOp (inv_performLoad h bytes)
  | tick => cases (step_tick hop).symm.trans hstep; exact inv_retireOp (inv_performTick h)
  | step e =>
    obtain ⟨u, hu, rfl⟩ := runInstr_of_step (stepIsNext_of_step hop) hstep
    exact inv_retireOp (inv_runInstr h hu)

/-! ### The invariant shuts out the one stop -/

theorem runInstr_next_of_inv {s : State} (h : Inv s) : ∃ t, runInstr s = .next t := by
  cases hs : s.runState with
  | halted =>
    obtain ⟨r, hr⟩ := Option.isSome_iff_exists.1 (h.faultIffHalted.2 hs)
    exact ⟨_, runInstr_of_halted hs hr⟩
  | running =>
    obtain ⟨r, -, hf⟩ | ⟨i, -, he, -⟩ := runInstr_cases s hs
    · exact ⟨_, hf⟩
    · obtain ⟨t, ht, -⟩ := exec_cases i s
      exact ⟨t, he.trans ht⟩

/-- Settles O20: a halted core holds the record that its STEP returns, and a running one always goes on. -/
theorem invStepAlwaysGoesOn : Obligations.InvStepAlwaysGoesOn := fun s h => by
  cases hop : s.nextOp with
  | reset => exact ⟨_, step_reset hop⟩
  | load bytes => exact ⟨_, step_load hop⟩
  | tick => exact ⟨_, step_tick hop⟩
  | step e =>
    obtain ⟨t, ht⟩ := runInstr_next_of_inv h
    exact ⟨_, step_of_runInstr (stepIsNext_of_step hop) ht⟩

/-! ### The canonical form of memory -/

/-- In a rising list the entry of an address is the one that a lookup finds. -/
theorem Memory.lookup_eq_some_iff {m : Memory} (h : m.Pairwise fun p q => p.1 < q.1) {a : Nat} {b : Byte} :
    Memory.lookup m a = some b ↔ (a, b) ∈ m := by
  induction m with
  | nil => simp [Memory.lookup]
  | cons p m ih =>
    obtain ⟨k, c⟩ := p
    obtain ⟨hk, hm⟩ := List.pairwise_cons.1 h
    by_cases hka : k = a
    · subst hka
      have hnot : (k, b) ∉ m := fun hmem => Nat.lt_irrefl k (hk _ hmem)
      simp [Memory.lookup, hnot, eq_comm]
    · simp [Memory.lookup, hka, Ne.symm hka, ih hm]

/-- An entry of a canonical memory is the byte read at its address, where reset left another. -/
theorem Memory.mem_iff_read {c : Config} {m : Memory} (h : Memory.wf c m) {a : Nat} {b : Byte} :
    (a, b) ∈ m ↔ Memory.read c m a = b ∧ b ≠ c.resetByte a := by
  obtain ⟨hrising, hchanged⟩ := h
  rw [← Memory.lookup_eq_some_iff hrising, Memory.read]
  cases hl : Memory.lookup m a with
  | none => simp [eq_comm]
  | some d =>
    have hd : d ≠ c.resetByte a := (hchanged _ ((Memory.lookup_eq_some_iff hrising).1 hl)).2
    constructor
    · intro e; cases e; exact ⟨rfl, hd⟩
    · exact fun e => congrArg some e.1

/-- Settles O21: what is read decides which entries there are, and a strictly rising list is decided by its entries. -/
theorem canonicalMemoriesReadingAlikeAreEqual : Obligations.CanonicalMemoriesReadingAlikeAreEqual := by
  intro c m m' hm hm' hread
  have hirrefl : Std.Irrefl fun p q : Host.Cell => p.1 < q.1 := ⟨fun p => Nat.lt_irrefl p.1⟩
  have hantisymm : Std.Antisymm fun p q : Host.Cell => p.1 < q.1 := ⟨fun p q hpq hqp => by omega⟩
  refine hm.1.eq_of_mem_iff hm'.1 fun ⟨a, b⟩ => ?_
  rw [Memory.mem_iff_read hm, Memory.mem_iff_read hm', hread]

end Sys2Proof.Machine
end

section
/-! Proofs about single instructions (41_arithmetic_logic.md to 44_timers_external.md): what each writes, its frame, and
the fault of those that check an address or the stack. -/

namespace Sys2Proof.Machine

/-! ### Registers -/

/-- Settles O30: the one register write is the wrapped sum. -/
theorem addImmediate : Obligations.AddImmediate := fun x nn s => by
  obtain ⟨t, hexec, hpc, hx, hframe⟩ := exec_of_writeV (i := .addVxNn x nn) (s := s) rfl
  exact ⟨decode_encode (.addVxNn x nn), t, hexec, hpc, by rw [hx, toNat_add8], hframe⟩

/-- Settles O35: the shifted register, then the bit shifted out of the old one. -/
theorem shiftsMoveVxByOne : Obligations.ShiftsMoveVxByOne := fun x y s => by
  refine ⟨decode_encode (.shrVxVy x y), decode_encode (.shlVxVy x y), ?_, ?_⟩
  · obtain ⟨t, hexec, hpc, hx, hF, hframe⟩ := exec_of_writeV_writeVF (i := .shrVxVy x y) (s := s) rfl
    exact ⟨t, hexec, hpc, fun hne => by rw [hx hne, toNat_shiftRight1],
      by rw [hF, toNat_flagByte_bitOutRight], hframe⟩
  · obtain ⟨t, hexec, hpc, hx, hF, hframe⟩ := exec_of_writeV_writeVF (i := .shlVxVy x y) (s := s) rfl
    exact ⟨t, hexec, hpc, fun hne => by rw [hx hne, toNat_shiftLeft1],
      by rw [hF, toNat_flagByte_bitOutLeft], hframe⟩

/-- Settles O36: the one register write is the answer under the mask. -/
theorem randomUnderMask : Obligations.RandomUnderMask := fun x nn s => by
  obtain ⟨t, hexec, hpc, hx, hframe⟩ := exec_of_writeV (i := .rndVxNn x nn) (s := s) rfl
  exact ⟨decode_encode (.rndVxNn x nn), t, hexec, hpc, fun _ => by rw [hx, BitVec.getLsbD_and], hframe⟩

/-! ### Jumps and skips -/

/-- Settles O38: the sum of a 12-bit and an 8-bit number, which no 16-bit sum truncates. -/
theorem jumpWithOffset : Obligations.JumpWithOffset := fun nnn s => by
  obtain ⟨t, hexec, hpc, hframe⟩ := exec_of_complete (i := .jpV0Nnn nnn) (s := s) rfl
  have hsum : t.pc.toNat = nnn.toNat + (s.readV 0x0).toNat := by rw [hpc, toNat_jumpSum]
  have hsize : memSize = 4096 := rfl
  refine ⟨decode_encode (.jpV0Nnn nnn), t, hexec, hsum, ?_, hframe, fun h => ⟨_, fetch_error (by omega)⟩⟩
  have := nnn.isLt
  have := (s.readV 0x0).isLt
  omega

/-- Settles O43: the two skips compute the equality of the registers, or its negation. -/
theorem skipsOnRegisters : Obligations.SkipsOnRegisters := fun x y _ =>
  ⟨decode_encode (.seVxVy x y), decode_encode (.sneVxVy x y),
    exec_of_skipTarget rfl beq_iff_eq, exec_of_skipTarget rfl bne_iff_ne,
    fun n hn => ⟨(decode_family5_toOption x y n).trans (if_neg hn), (decode_family9_toOption x y n).trans (if_neg hn)⟩⟩

/-- R181 and R191: a key value of 16 or more is not down. -/
theorem keyDown_eq (e : Env) (k : Byte) :
    keyDown e k = if k.toNat < 16 then e.keysDown.getLsbD k.toNat else false := by
  by_cases h : k.toNat < 16 <;> simp [keyDown, h]

/-- Settles O54: the two skips compute the key query, or its negation. -/
theorem skipsOnKey : Obligations.SkipsOnKey := by
  intro x s down hdown
  rw [← keyDown_eq] at hdown
  refine ⟨decode_encode (.skpVx x), decode_encode (.sknpVx x), exec_of_skipTarget rfl (by rw [hdown]), ?_⟩
  obtain ⟨t, hexec, hpc, hframe⟩ :=
    exec_of_skipTarget (i := .sknpVx x) (s := s) (p := ¬ down = true) rfl (by simp [hdown])
  exact ⟨t, hexec, by rw [hpc, ite_not], hframe⟩

/-! ### Call and return -/

/-- Settles O39: by whether a slot is free. -/
theorem callPushesOrOverflows : Obligations.CallPushesOrOverflows := fun nnn s => by
  refine ⟨decode_encode (.callNnn nnn), fun h => ?_, fun h => ⟨_, exec_callNnn_of_full nnn h, rfl⟩⟩
  refine ⟨_, exec_callNnn_of_lt nnn h, toNat_zext12 nnn, rfl, fun k => ?_,
    fun _ hp => Part.same_of_fields hp, rfl, rfl, rfl⟩
  simp only [Fin.getElem_fin, Vector.getElem_set, eq_comm, State.pcNext]

/-- Settles O40: by whether a return address is stacked. -/
theorem returnPopsOrUnderflows : Obligations.ReturnPopsOrUnderflows := fun _ =>
  ⟨decode_encode .ret,
    fun h => ⟨_, exec_ret_of_pos h, rfl, rfl, fun _ hp => Part.same_of_fields hp, rfl, rfl, rfl⟩,
    fun h => ⟨_, exec_ret_of_zero h, rfl⟩⟩

/-- Settles O41: the return pops the slot that the call has written. -/
theorem callThenReturnRestores : Obligations.CallThenReturnRestores := fun nnn s h =>
  ⟨_, _, exec_callNnn_of_lt nnn h, exec_ret_of_pos (Nat.succ_pos _), by simp [State.pcNext], by simp,
    fun _ hp => Part.same_of_fields hp, rfl, rfl, rfl⟩

/-! ### The index register and the sound timer -/

/-- Settles O46: the 16-bit sum. -/
theorem addToIndex : Obligations.AddToIndex := fun x s =>
  ⟨decode_encode (.addIVx x), _, rfl, rfl, BitVec.toNat_ofNat _ 16, keepsAllBut_i s _ _⟩

/-- R163: with the font in the reserved region no glyph address wraps or leaves it. -/
theorem toNat_glyphAddr {c : Config} (h : c.wellFormed = true) (b : Byte) :
    (glyphAddr c b).toNat = c.fontBase + 5 * (b.toNat % 16) ∧ (glyphAddr c b).toNat < 0x200 := by
  have hfont : c.fontBase + 80 ≤ 0x200 := of_decide_eq_true h
  have hlt : c.fontBase + 5 * (b.toNat % 16) < 0x200 := by omega
  have haddr : (glyphAddr c b).toNat = c.fontBase + 5 * (b.toNat % 16) :=
    (BitVec.toNat_ofNat _ 16).trans (Nat.mod_eq_of_lt (by omega))
  exact ⟨haddr, haddr ▸ hlt⟩

/-- Settles O47: the glyph's address. -/
theorem indexToGlyph : Obligations.IndexToGlyph := fun x s h => by
  obtain ⟨haddr, hlt⟩ := toNat_glyphAddr h (s.readV x)
  exact ⟨decode_encode (.ldFVx x), _, rfl, rfl, haddr, hlt, keepsAllBut_i s _ _⟩

/-- Settles O58: the one write is of ST, which the buzzer follows. -/
theorem setSoundTimer : Obligations.SetSoundTimer := fun x _ =>
  ⟨decode_encode (.ldStVx x), _, rfl, rfl, rfl, State.buzzer_iff _, fun _ hp => Part.same_of_fields hp, rfl, rfl, rfl⟩

/-! ### The display and the keys -/

/-- Settles O53: the one write is of the requests. -/
theorem clearDisplay : Obligations.ClearDisplay := fun _ =>
  ⟨decode_encode .cls, _, rfl, rfl, rfl, fun _ hp => Part.same_of_fields hp, rfl, rfl, rfl⟩

/-- Settles O55: by whether an event is delivered. -/
theorem waitForKey : Obligations.WaitForKey := fun x s => by
  refine ⟨decode_encode (.ldVxK x), fun k hk => ?_, exec_ldVxK_of_none⟩
  obtain ⟨t, hexec, hpc, hx, hframe⟩ := exec_of_writeV (exec_ldVxK_of_some hk)
  have hwide : (k.zeroExtend 8).toNat = k.toNat := by simp only [BitVec.toNat_setWidth]; omega
  exact ⟨t, hexec, hpc, by rw [hx, hwide], hframe⟩

/-! ### Stores -/

theorem State.dataAddr_eq (s : State) (k : Nat) : s.dataAddr k = s.dataAddr 0 + k := rfl

/-- An instruction whose meaning is a store at I. -/
theorem exec_of_storeBytes {i : Instr} {s : State} {bs : List Byte}
    (h : exec i s = complete (s.storeBytes (s.dataAddr 0) bs) s.pcNext) :
    ∃ t, exec i s = .next t ∧ t.pc = s.pc + 2 ∧
      (∀ k (hk : k < bs.length), t.readByte (s.dataAddr k) = bs[k]) ∧
      (∀ a, (∀ k, k < bs.length → a ≠ s.dataAddr k) → t.readByte a = s.readByte a) ∧ KeepsAllBut [.mem] s t := by
  refine ⟨_, h, rfl, fun k hk => ?_, fun a ha => ?_, fun _ hp => Part.same_of_fields hp, by simp, by simp, rfl⟩
  · have haddr := s.dataAddr_eq k
    have hoff : s.dataAddr k - s.dataAddr 0 = k := by omega
    refine (s.readByte_storeBytes _ bs (s.dataAddr k)).trans ((dif_pos ⟨by omega, by omega⟩).trans ?_)
    simp only [hoff]
  · refine (s.readByte_storeBytes _ bs a).trans (dif_neg fun ⟨hle, hlt⟩ => ha _ hlt ?_)
    rw [s.dataAddr_eq, Nat.add_sub_cancel' hle]

theorem toNat_bcdDigits (b : Byte) :
    (bcdDigits b).map BitVec.toNat = [b.toNat / 100, b.toNat / 10 % 10, b.toNat % 10] := by
  have := b.isLt
  simp only [bcdDigits, List.map_cons, List.map_nil, BitVec.toNat_ofNat, List.cons.injEq, and_true]
  omega

/-- Settles O48: by what the bounds check answers for the three addresses. -/
theorem storeDecimalDigits : Obligations.StoreDecimalDigits := fun x s => by
  have hsize : memSize = 4096 := rfl
  have horigin : origin = 0x200 := rfl
  have hlen : (bcdDigits (s.readV x)).length = 3 := rfl
  have hne : bcdDigits (s.readV x) ≠ [] := List.cons_ne_nil _ _
  have haddr := s.dataAddr_eq 2
  refine ⟨decode_encode (.ldBVx x), fun hin hfree => ?_, fun hprot hlow => ?_, fun hout => ?_⟩
  · have hbound : s.dataAddr 0 + (bcdDigits (s.readV x)).length ≤ memSize := by omega
    obtain ⟨t, hexec, hpc, hstored, hother, hframe⟩ :=
      exec_of_storeBytes (exec_ldBVx_of_ok (s.memWrite_ok hbound hfree))
    have hdigits := toNat_bcdDigits (s.readV x)
    simp only [bcdDigits, List.map_cons, List.map_nil, List.cons.injEq, and_true] at hdigits
    obtain ⟨hhundreds, htens, hunits⟩ := hdigits
    exact ⟨t, hexec, hpc, (congrArg _ (hstored 0 (by omega))).trans hhundreds,
      (congrArg _ (hstored 1 (by omega))).trans htens, (congrArg _ (hstored 2 (by omega))).trans hunits, hother, hframe⟩
  · exact ⟨_, exec_ldBVx_of_error (s.memWrite_error_reserved hne hprot hlow), rfl⟩
  · exact ⟨_, exec_ldBVx_of_error (s.memWrite_error_outside hne (by omega) (by omega)), rfl⟩

/-- The store of V0 to Vx, where its addresses may be written. -/
theorem exec_ldMiVx_of_free {x : Nibble} {s : State} (hin : s.dataAddr x.toNat < 4096)
    (hfree : ¬ (s.cfg.protectReserved = true ∧ s.dataAddr 0 < 0x200)) :
    ∃ t, exec (.ldMiVx x) s = .next t ∧ t.pc = s.pc + 2 ∧
      (∀ r : Nibble, r.toNat ≤ x.toNat → t.readByte (s.dataAddr r.toNat) = s.readV r) ∧
      (∀ a, (∀ k, k ≤ x.toNat → a ≠ s.dataAddr k) → t.readByte a = s.readByte a) ∧ KeepsAllBut [.mem] s t := by
  have hsize : memSize = 4096 := rfl
  have hlen := s.length_regsUpTo x
  have haddr := s.dataAddr_eq x.toNat
  have hbound : s.dataAddr 0 + (s.regsUpTo x).length ≤ memSize := by omega
  obtain ⟨t, hexec, hpc, hstored, hother, hframe⟩ :=
    exec_of_storeBytes (exec_ldMiVx_of_ok (s.memWrite_ok hbound hfree))
  refine ⟨t, hexec, hpc, fun r hr => ?_, fun a ha => hother a fun k hk => ha k (by omega), hframe⟩
  rw [hstored r.toNat (by omega), State.getElem_regsUpTo, BitVec.ofNat_toNat, BitVec.setWidth_eq]

/-- Settles O49: by what the bounds check answers for the addresses I to I+x. -/
theorem storeRegisters : Obligations.StoreRegisters := fun x s => by
  have hsize : memSize = 4096 := rfl
  have horigin : origin = 0x200 := rfl
  have hlen := s.length_regsUpTo x
  have hne := s.regsUpTo_ne_nil x
  have haddr := s.dataAddr_eq x.toNat
  refine ⟨decode_encode (.ldMiVx x), exec_ldMiVx_of_free, fun hprot hlow => ?_, fun hout => ?_⟩
  · exact ⟨_, exec_ldMiVx_of_error (s.memWrite_error_reserved hne hprot hlow), rfl⟩
  · exact ⟨_, exec_ldMiVx_of_error (s.memWrite_error_outside hne (by omega) (by omega)), rfl⟩

/-- Settles O52: I and I+1 are where the next fetch reads, and the store leaves V0 and V1 there. -/
theorem storedWordIsFetchedNext : Obligations.StoredWordIsFetchedNext := fun s hi hpc hfree => by
  have hi0 : s.dataAddr 0 = s.pc.toNat + 2 := by simp only [State.dataAddr, hi]; bv_omega
  have hi1 : s.dataAddr 1 = s.pc.toNat + 2 + 1 := by rw [s.dataAddr_eq, hi0]
  have hin : s.dataAddr 1 < 4096 := by omega
  obtain ⟨t, hexec, htpc, hstored, -, -⟩ := exec_ldMiVx_of_free (x := 0x1) hin hfree
  have hnext : t.pc.toNat = s.pc.toNat + 2 := by rw [htpc]; bv_omega
  refine ⟨t, hexec, ?_⟩
  rw [fetch_ok (by rw [hnext]; exact hpc), hnext, ← hi1, ← hi0]
  exact congrArg Except.ok (congrArg₂ wordOfBytes (hstored 0x0 (by decide)) (hstored 0x1 (by decide)))

/-! ### Loads and the sprite -/

/-- Settles O50: by whether the addresses I to I+x lie in memory. -/
theorem loadRegisters : Obligations.LoadRegisters := fun x s => by
  have hsize : memSize = 4096 := rfl
  have haddr := s.dataAddr_eq x.toNat
  refine ⟨decode_encode (.ldVxMi x), fun hin => ?_, fun hout => ?_⟩
  · have hread := s.memRead_ok (a := s.dataAddr 0) (n := x.toNat + 1) (.inr (by omega))
    have hlen := State.length_of_memRead hread
    refine ⟨_, exec_ldVxMi_of_ok hread, rfl, fun r => ?_, fun _ hp => Part.same_of_fields hp, by simp, by simp, rfl⟩
    refine (s.readV_loadRegs 0 _ (by omega) r).trans ?_
    by_cases hr : r.toNat ≤ x.toNat
    · rw [dif_pos (by omega), if_pos hr]
      simp [s.dataAddr_eq r.toNat]
    · rw [dif_neg (by omega), if_neg hr]
  · have hread := s.memRead_error (a := s.dataAddr 0) (n := x.toNat + 1) (by omega) (by omega)
    exact ⟨_, exec_ldVxMi_of_error hread, rfl⟩

/-- R191: an empty sprite never collides. -/
theorem flagByte_drawAnswer (e : Env) (rows : List Byte) :
    flagByte (drawAnswer e rows) = if rows.length ≠ 0 ∧ e.collided = true then 1 else 0 := by
  cases rows <;> simp [flagByte, drawAnswer]

/-- Settles O51: by whether the sprite's bytes lie in memory. -/
theorem drawSprite : Obligations.DrawSprite := fun x y n s => by
  refine ⟨decode_encode (.drwVxVyN x y n), fun hin => ?_, fun hn hout => ?_⟩
  · have hread := s.memRead_ok (a := s.dataAddr 0) (n := n.toNat) hin
    have hlen := State.length_of_memRead hread
    refine ⟨_, _, exec_drwVxVyN_of_ok hread, rfl, hlen, fun k hk => ?_, rfl, ?_, fun r hr => ?_,
      fun _ hp => Part.same_of_fields hp, rfl, rfl, rfl⟩
    · simp [hk, State.dataAddr]
    · refine ((s.request _).readV_writeV_same flagReg _).trans ?_
      rw [flagByte_drawAnswer, hlen]
    · exact (s.request _).readV_writeV_other _ hr
  · exact ⟨_, exec_drwVxVyN_of_error (s.memRead_error hn hout), rfl⟩

end Sys2Proof.Machine
end
